-- ==== Sys2Proof/Word.lean ====
section
/-! DEFINITION. The widths of the crosspl VM core (00_scope.md R6, R8): instruction words, stack entries and
memory cells are 32 bits, an instruction word splits into a 6-bit opcode and a 26-bit operand, and the binary
program file is made of 8-bit bytes. Every value is unsigned (R8). -/

namespace Sys2Proof

/-- `Word32` of R8: an instruction word (`WORD_BITS`), a stack entry or a memory cell (`VAL_BITS`). -/
abbrev Word := BitVec 32

/-- One byte of the binary program file, the only place where bytes exist (20_memory.md R32). -/
abbrev Byte := BitVec 8

/-- The opcode field `A` = `w[5:0]` (30_encoding.md R46, `OPC_BITS`). -/
abbrev Opcode := BitVec 6

/-- The operand field `B` = `w[31:6]` (30_encoding.md R46, `OPD_BITS`). -/
abbrev Operand := BitVec 26

end Sys2Proof
end

