-- ==== Sys2Proof/Config.lean ====
section
/-! DEFINITION. What is fixed for one core and is not state (10_state.md R13): `MEM_SIZE`, the two parameters the
spec leaves OPEN for the hardware (00_scope.md R6), and the free values that stand for what the spec says nobody may
rely on after a fault (60_exceptions.md R112). -/

namespace Sys2Proof

/-- The OPEN parameters of the hardware (00_scope.md R6). Every operation that depends on one takes a `Params` as an
argument, as R6 asks. `WellFormed.lean` says which values R6 admits. -/
structure Params where
  /-- `STACK_CAP`: `none` is an unbounded stack, `some n` (n ≥ 2) the greatest depth. -/
  stackCap : Option Nat
  /-- `PROG_MAX`: `none` is an unbounded program store, `some n` the most words it holds. -/
  progMax : Option Nat
deriving DecidableEq, Repr

/-- `MEM_SIZE`, the number of data-memory cells (00_scope.md R6, 92_eei_decisions.md D3). -/
def Config.memSize : Nat := 1024

/-- How far this core's `STACK_CAP` lies above 2, or `none` for an unbounded stack. No body: the spec leaves the
parameter OPEN, so nothing can be proved of its value (log entry 2). -/
opaque Config.stackCapOverTwo : Option Nat

/-- This core's `PROG_MAX`. No body: OPEN (log entry 2). -/
opaque Config.progMax : Option Nat

/-- The parameters of this core. `STACK_CAP` is an arbitrary value among those R6 admits: `none`, or `some n` with
n ≥ 2. -/
def Config.params : Params :=
  { stackCap := Config.stackCapOverTwo.map (· + 2), progMax := Config.progMax }

/-- FREE VALUE (log entry 3): the stack after the n-th execution fault, whose contents "must not be trusted"
(60_exceptions.md R112, 93_implementation_defined.md row 2). -/
opaque Config.faultedStack : Nat → List Word

/-- FREE VALUE (log entry 3): what each data-memory cell holds after the n-th execution fault. -/
opaque Config.faultedCell : Nat → Nat → Word

end Sys2Proof
end

