-- ==== Sys2Proof/Syntax.lean ====
section
/-! DEFINITION. The instruction record every word decodes to (30_encoding.md R46, R48), the four instructions of the
closed opcode map (R55), and the shape of a row of that map. -/

namespace Sys2Proof

/-- The instruction record of 30_encoding.md R48: the pair (opcode, operand) that EVERY 32-bit word decodes to. -/
structure Record where
  opcode : Opcode
  operand : Operand
deriving DecidableEq, Repr

/-- The four instructions of the opcode map (30_encoding.md R55). Each carries its operand field, because the decoder
always extracts it and only the executor decides whether it is used (R49): LOAD_CONST and READ_MEM use it,
WRITE_MEM and BITREVERSE ignore it (R56). -/
inductive Instr where
  /-- LOAD_CONST (opcode 42): push the operand. -/
  | loadConst (b : Operand)
  /-- READ_MEM (opcode 23): push the memory cell the operand addresses. -/
  | readMem (b : Operand)
  /-- WRITE_MEM (opcode 1): pop an address, pop a value, store. The operand is ignored. -/
  | writeMem (b : Operand)
  /-- BITREVERSE (opcode 60): reverse the bits of the top entry. The operand is ignored. -/
  | bitreverse (b : Operand)
deriving DecidableEq, Repr

/-- A row of the opcode map: a word `w` belongs to it when `w &&& mask = pattern` (30_encoding.md R55). -/
structure TableRow where
  mnemonic : String
  mask : Word
  pattern : Word
deriving DecidableEq, Repr

end Sys2Proof
end

