-- ==== Sys2Proof/Machine/State.lean ====
section
/-! DEFINITION. The state of the core: the tuple (program, ip, stack, memory, status) of 10_state.md R12, one counter of
the model's own, the reasons a step can stop, and the state after reset (R27). -/

namespace Sys2Proof.Machine

/-- The `state` field of the status record (10_state.md R23). -/
inductive RunState where
  /-- After reset, before a program is loaded and started. -/
  | idle
  /-- `ip` < `N` and no fault. -/
  | running
  /-- `ip` = `N`, no fault: the normal end of a run. -/
  | halted
  /-- A load or execution fault ended the run. -/
  | faulted
deriving DecidableEq, Repr

/-- The fault catalogue of 60_exceptions.md R108. These are the hardware's own faults: raising one is a next state
whose status records it (R110), not a `Fault` of the model. -/
inductive Cause where
  /-- Code 1, execution: dispatch of an unassigned opcode. -/
  | unknownOpcode
  /-- Code 2, execution: WRITE_MEM with depth < 2, BITREVERSE with depth < 1. -/
  | stackUnderflow
  /-- Code 3, execution: READ_MEM or WRITE_MEM with an address ≥ `MEM_SIZE`. -/
  | addressOutOfRange
  /-- Code 4, load: the file length is not a multiple of 4. -/
  | malformedBinaryLength
  /-- Code 5, execution: a push onto a stack that is full under a finite `STACK_CAP`. -/
  | stackOverflow
  /-- Code 6, load: more words than a finite `PROG_MAX`. -/
  | programTooLarge
deriving DecidableEq, Repr

/-- The status record a host can read (10_state.md R23). -/
structure Status where
  state : RunState
  cause : Option Cause
  faultIp : Option Nat
deriving DecidableEq, Repr

/-- The data memory (10_state.md R22): cell index and Word32, indexes strictly rising, no cell listed that holds 0,
which is what an unlisted cell reads as (R27). `Memory.wf` (Ops.lean) states that form. -/
abbrev Memory := List (Nat × Word)

/-- Everything the core holds (10_state.md R12). -/
structure State where
  /-- The program store: `program[0]` to `program[N-1]`, raw words (R17). -/
  program : List Word
  /-- The index of the next instruction to execute (R15). -/
  ip : Nat
  /-- The stack (R18), TOP FIRST: the head of the list is `s_{d-1}`. -/
  stack : List Word
  /-- The data memory (R22). -/
  memory : Memory
  /-- The status record (R23). -/
  status : Status
  /-- The MODEL's own field, not the spec's: how many free values have been drawn (log entry 3). -/
  freeDrawn : Nat
deriving DecidableEq, Repr

/-- Where the model stops although the spec gives no stop. -/
inductive Fault where
  /-- Raised by `nextActionWith` (Fetch.lean) when the core is Running with `ip` > `N`: no such word exists
  (10_state.md R15 says `ip` never exceeds `N`; log entry 8). Safe: no run reaches such a state, and the model only stops. -/
  | fetchPastEnd
deriving DecidableEq, Repr

/-- Instructions without a meaning. -/
inductive Refusal where
  /-- Raised by an arm of `exec` whose instruction has no meaning yet; no arm raises it now. Safe: the model stops. -/
  | notModelled (mnemonic : String)
deriving DecidableEq, Repr

/-- The state right after reset, every value as 10_state.md R27 gives it. `freeDrawn` is the model's own
(DESIGN CHOICE, log entry 3). -/
def State.reset : State :=
  { program := []
    ip := 0
    stack := []
    memory := []
    status := { state := .idle, cause := none, faultIp := none }
    freeDrawn := 0 }

end Sys2Proof.Machine
end

