-- ==== Sys2Proof/WellFormed.lean ====
section
/-! DEFINITION. The checks on what the core is given: a record, a toolchain record of plain numbers, the parameters,
the memory size and a binary program file. An `Instr` needs no check of its own: its operand is 26 bits wide by its type,
and every 26-bit operand is legal for each of the four instructions (30_encoding.md R55, R56). -/

namespace Sys2Proof

/-- An assigned record: its opcode is one of the four of 30_encoding.md R55. A record that is not assigned is an
UnknownOpcode record (R57). -/
def Record.assigned (r : Record) : Bool :=
  r.opcode == 1#6 || r.opcode == 23#6 || r.opcode == 42#6 || r.opcode == 60#6

/-- The range of 30_encoding.md R52 for a toolchain record given as numbers: opcode in 0..63, operand in 0..2^26-1. -/
def rawRecordWellFormed (opcode operand : Nat) : Bool :=
  decide (opcode < 64) && decide (operand < 2 ^ 26)

/-- The parameter values 00_scope.md R6 admits: a finite `STACK_CAP` is at least 2. -/
def Params.wellFormed (p : Params) : Bool :=
  match p.stackCap with
  | none => true
  | some n => decide (2 ≤ n)

/-- The sizes 00_scope.md R6 (92_eei_decisions.md D20) admits for the data memory. -/
def memSizeWellFormed (n : Nat) : Bool :=
  decide (1 ≤ n) && decide (n ≤ 2 ^ 26)

/-- A well-formed binary program file: its length is a multiple of 4 (30_encoding.md R60). -/
def binaryWellFormed (bytes : List Byte) : Bool :=
  decide (bytes.length % 4 = 0)

end Sys2Proof
end

