-- ==== Sys2Proof/Machine/Ops.lean ====
section
/-! DEFINITION. The operations the instructions share: the memory interface (20_memory.md), the stack (10_state.md
R18 to R21), the address check, fault entry (60_exceptions.md R110), the advance of `ip` (40_decode_dispatch.md R78)
and the halting move (R79). -/

namespace Sys2Proof.Machine

/-! ### Data memory -/

/-- What an unlisted cell reads as: every cell is 0 after reset (10_state.md R27). -/
def Memory.unlisted : Word := 0#32

/-- `memory[a]` (20_memory.md R35). -/
def Memory.read : Memory → Nat → Word
  | [], _ => Memory.unlisted
  | (b, w) :: rest, a => if a = b then w else Memory.read rest a

/-- List a nonzero value at its place. -/
def Memory.insert (a : Nat) (v : Word) : Memory → Memory
  | [] => [(a, v)]
  | (b, w) :: rest =>
    if a < b then (a, v) :: (b, w) :: rest
    else if a = b then (a, v) :: rest
    else (b, w) :: Memory.insert a v rest

/-- Unlist a cell. -/
def Memory.erase (a : Nat) (m : Memory) : Memory :=
  m.filter (fun c => c.1 != a)

/-- `memory[a] <- v` (20_memory.md R36), keeping the canonical form: writing the value an unlisted cell reads as
unlists the cell. -/
def Memory.write (m : Memory) (a : Nat) (v : Word) : Memory :=
  if v = Memory.unlisted then Memory.erase a m else Memory.insert a v m

/-- The memory whose cell `a` holds `f a`, for every legal `a`. (Irreducible, so that no proof counts out its cells.) -/
@[irreducible] def Memory.ofCells (f : Nat → Word) : Memory :=
  (List.range Config.memSize).filterMap
    (fun a => if f a = Memory.unlisted then none else some (a, f a))

/-- The canonical form: indexes strictly rising and legal (20_memory.md R30), no listed value equal to what an unlisted
cell reads as. -/
def Memory.wf (m : Memory) : Bool :=
  decide (m.Pairwise (fun x y => x.1 < y.1)) &&
    m.all (fun c => decide (c.1 < Config.memSize) && c.2 != Memory.unlisted)

/-- The only check on an address (20_memory.md R30, R39). -/
def checkAddress (a : Nat) : Except Cause Unit :=
  if a < Config.memSize then .ok () else .error .addressOutOfRange

/-- `MemRead(a, 1)` (20_memory.md R35); the caller has checked the address (R31). -/
def memRead (a : Nat) (s : State) : Word :=
  Memory.read s.memory a

/-- `MemWrite(a, 1, v)` (20_memory.md R36); the caller has checked the address (R31). -/
def memWrite (a : Nat) (v : Word) (s : State) : State :=
  { s with memory := Memory.write s.memory a v }

/-! ### The stack -/

/-- Whether `STACK_CAP` = `some n` and `depth()` = n (10_state.md R20). A finite cap is at least 2 (00_scope.md R6), so
a stack of fewer than two entries is full under no cap, and the parameter is looked at only from depth 2 on. -/
def stackFull (p : Params) (stack : List Word) : Bool :=
  match stack with
  | [] => false
  | [_] => false
  | _ :: _ :: _ => decide (p.stackCap = some stack.length)

/-- `push(v)` (10_state.md R20). -/
def push (p : Params) (v : Word) (s : State) : Except Cause State :=
  if stackFull p s.stack then .error .stackOverflow
  else .ok { s with stack := v :: s.stack }

/-- The push that follows a pop of the same instruction: it never finds the stack full (42_alu_bitreverse.md R103,
R107), so it makes no check. -/
def pushIntoRoom (v : Word) (s : State) : State :=
  { s with stack := v :: s.stack }

/-- The depth check that stands before any pop (10_state.md R21). -/
def requireDepth (n : Nat) (s : State) : Except Cause Unit :=
  if s.stack.length < n then .error .stackUnderflow else .ok ()

/-- `pop()` (10_state.md R21). `requireDepth` comes first, so the stack is never empty here. -/
def pop (s : State) : Except Cause (Word × State) :=
  match s.stack with
  | [] => .error .stackUnderflow
  | v :: rest => .ok (v, { s with stack := rest })

/-! ### Fault entry -/

/-- The fault's number in the catalogue (60_exceptions.md R108); it only names the case. -/
def Cause.code : Cause → Nat
  | .unknownOpcode => 1
  | .stackUnderflow => 2
  | .addressOutOfRange => 3
  | .malformedBinaryLength => 4
  | .stackOverflow => 5
  | .programTooLarge => 6

/-- The `kind` column of 60_exceptions.md R108: a load fault, or an execution fault. -/
def Cause.isLoad : Cause → Bool
  | .malformedBinaryLength => true
  | .programTooLarge => true
  | .unknownOpcode => false
  | .stackUnderflow => false
  | .addressOutOfRange => false
  | .stackOverflow => false

/-- The free stack drawn at a fault, cut to the depth `STACK_CAP` allows (10_state.md R18: 0 ≤ d ≤ n always). -/
def freeStack (p : Params) (n : Nat) : List Word :=
  match p.stackCap with
  | none => Config.faultedStack n
  | some d => (Config.faultedStack n).take d

/-- `raise F(ip)` for an execution fault (60_exceptions.md R110): `state <- Faulted`, `cause <- F`, `fault_ip <- ip`;
`ip` is not advanced. The stack and memory become FREE VALUES: R112 says a model must not pick the values the
pseudocode happens to leave (log entry 3). -/
def raise (p : Params) (c : Cause) (s : State) : State :=
  { s with
    stack := freeStack p s.freeDrawn
    memory := Memory.ofCells (Config.faultedCell s.freeDrawn)
    status := { state := .faulted, cause := some c, faultIp := some s.ip }
    freeDrawn := s.freeDrawn + 1 }

/-- A load fault (60_exceptions.md R124): `fault_ip <- None`, no word loaded, `ip`, the stack and memory unchanged. -/
def raiseLoad (c : Cause) (s : State) : State :=
  { s with status := { state := .faulted, cause := some c, faultIp := none } }

/-! ### The end of an instruction and the end of a run -/

/-- `ip <- ip + 1` (40_decode_dispatch.md R78). -/
def advance (s : State) : State :=
  { s with ip := s.ip + 1 }

/-- How every instruction ends: without a fault it advances `ip` (40_decode_dispatch.md R78), with one it enters the
fault from the state it started in (60_exceptions.md R110). -/
def complete (p : Params) (s : State) (r : Except Cause State) : Host.Outcome State Fault Refusal :=
  match r with
  | .ok t => .next (advance t)
  | .error c => .next (raise p c s)

/-- `state <- Halted` (40_decode_dispatch.md R79); `ip`, the stack and memory keep their values. -/
def halt (s : State) : State :=
  { s with status := { state := .halted, cause := none, faultIp := none } }

/-- The halting move: Running with `ip` = `N` becomes Halted (40_decode_dispatch.md R73, R79). It is no instruction
step. The model takes it as soon as `ip` reaches `N`, since `ip` = `N` means halted (10_state.md R15, R24; DEDUCED,
log entry 5). -/
def settle (s : State) : State :=
  if s.status.state = .running ∧ s.ip = s.program.length then halt s else s

/-- `settle` on the outcome of an instruction. -/
def settleOutcome : Host.Outcome State Fault Refusal → Host.Outcome State Fault Refusal
  | .next s => .next (settle s)
  | .fault r => .fault r
  | .refused r => .refused r

/-! ### Placing a word -/

/-- The program store with `w` at index `i`; indexes below `i` that held no word are filled with the all-zero word. -/
def placeWord (program : List Word) (i : Nat) (w : Word) : List Word :=
  program.take i ++ List.replicate (i - program.length) 0#32 ++ w :: program.drop (i + 1)

end Sys2Proof.Machine
end

