-- ==== Sys2Proof/Machine/Alu.lean ====
section
/-! DEFINITION. The ALU's one operation and the instruction that uses it (42_alu_bitreverse.md R102, R103). -/

namespace Sys2Proof.Machine

/-- The first `n` terms of the sum of 42_alu_bitreverse.md R102: bit i of `v`, for i < n, moved to bit 31 - i. The
terms occupy different bits, so the sum is their bitwise OR. -/
def bitrevTerms (v : Word) : Nat → Word
  | 0 => 0#32
  | n + 1 => bitrevTerms v n ||| ((v >>> n) &&& 1#32) <<< (31 - n)

/-- `bitrev32(v)` (42_alu_bitreverse.md R102). -/
def bitrev32 (v : Word) : Word :=
  bitrevTerms v 32

/-- BITREVERSE (42_alu_bitreverse.md R103). The push after the pop finds the room
the pop left, so it raises nothing. The operand
is ignored (30_encoding.md R56). -/
def bitreverseWith (p : Params) (_b : Operand) (s : State) : Host.Outcome State Fault Refusal :=
  complete p s (do
    requireDepth 1 s
    let (v, s₁) ← pop s
    .ok (pushIntoRoom (bitrev32 v) s₁))

/-- BITREVERSE on this core. -/
def execBitreverse (b : Operand) (s : State) : Host.Outcome State Fault Refusal :=
  bitreverseWith Config.params b s

end Sys2Proof.Machine
end

