-- ==== Sys2Proof/Machine/Operands.lean ====
section
/-! DEFINITION. The two forms of the immediate operand (30_encoding.md R50). Every other operand is a stack entry
(10_state.md R16, R19), reached by `push` and `pop` of Ops.lean. -/

namespace Sys2Proof.Machine

/-- LOAD_CONST's form: `zext_32(B)`, never sign-extended, scaled or shifted (30_encoding.md R50). -/
def immValue (b : Operand) : Word :=
  b.setWidth 32

/-- READ_MEM's form: the cell address `a = B` (30_encoding.md R50; a cell index, 20_memory.md R29). -/
def immAddress (b : Operand) : Nat :=
  b.toNat

/-- WRITE_MEM's address: the popped Word32 read as a cell index (20_memory.md R29). -/
def stackAddress (a : Word) : Nat :=
  a.toNat

end Sys2Proof.Machine
end

