-- ==== Sys2Proof/Machine/StackMemory.lean ====
section
/-! DEFINITION. The stack and memory primitives LOAD_CONST, READ_MEM and WRITE_MEM (41_stack_memory.md R84 to R86).
Each meaning takes the OPEN parameters as an argument (00_scope.md R6); the `exec…` form is it at this core's
parameters. -/

namespace Sys2Proof.Machine

/-- LOAD_CONST (41_stack_memory.md R84). -/
def loadConstWith (p : Params) (b : Operand) (s : State) : Host.Outcome State Fault Refusal :=
  complete p s (push p (immValue b) s)

/-- READ_MEM (41_stack_memory.md R85): the bounds check before the push (60_exceptions.md R113). -/
def readMemWith (p : Params) (b : Operand) (s : State) : Host.Outcome State Fault Refusal :=
  complete p s (do
    checkAddress (immAddress b)
    push p (memRead (immAddress b) s) s)

/-- WRITE_MEM (41_stack_memory.md R86): the first pop is the address. The operand is ignored (30_encoding.md R56). -/
def writeMemWith (p : Params) (_b : Operand) (s : State) : Host.Outcome State Fault Refusal :=
  complete p s (do
    requireDepth 2 s
    let (a, s₁) ← pop s
    let (v, s₂) ← pop s₁
    checkAddress (stackAddress a)
    .ok (memWrite (stackAddress a) v s₂))

/-- LOAD_CONST on this core. -/
def execLoadConst (b : Operand) (s : State) : Host.Outcome State Fault Refusal :=
  loadConstWith Config.params b s

/-- READ_MEM on this core. -/
def execReadMem (b : Operand) (s : State) : Host.Outcome State Fault Refusal :=
  readMemWith Config.params b s

/-- WRITE_MEM on this core. -/
def execWriteMem (b : Operand) (s : State) : Host.Outcome State Fault Refusal :=
  writeMemWith Config.params b s

end Sys2Proof.Machine
end

