-- ==== Sys2Proof/Machine/Dispatch.lean ====
section
/-! DEFINITION. One arm per instruction (40_decode_dispatch.md R76). -/

namespace Sys2Proof.Machine

/-- The effect of one instruction. `step` calls it in Running only (40_decode_dispatch.md R73; log entry 7). -/
def exec (i : Instr) (s : State) : Host.Outcome State Fault Refusal :=
  match i with
  | .loadConst b => Sys2Proof.Machine.execLoadConst b s
  | .readMem b => Sys2Proof.Machine.execReadMem b s
  | .writeMem b => Sys2Proof.Machine.execWriteMem b s
  | .bitreverse b => Sys2Proof.Machine.execBitreverse b s

end Sys2Proof.Machine
end

