-- ==== Sys2Proof/Decode.lean ====
section
/-! DEFINITION. From bytes to words (30_encoding.md R54, R59), from a word to its record (R48), from a record to its
instruction or a rejection by name (40_decode_dispatch.md R76), and back (R51). -/

namespace Sys2Proof

/-- Why bytes are no instruction. -/
inductive DecodeError where
  /-- Fewer than 4 bytes: every instruction is exactly 4 bytes long (30_encoding.md R47). -/
  | truncated
  /-- The opcode is not assigned (30_encoding.md R57). -/
  | unknownOpcode (opcode : Opcode)
deriving DecidableEq, Repr

/-! ### Words and bytes -/

/-- The word stored as the four bytes `b0 b1 b2 b3`, least significant first (30_encoding.md R54). -/
def wordOfBytes (b0 b1 b2 b3 : Byte) : Word :=
  b0.setWidth 32 ||| b1.setWidth 32 <<< 8 ||| b2.setWidth 32 <<< 16 ||| b3.setWidth 32 <<< 24

/-- The four bytes of a word in file order: `w[7:0]`, `w[15:8]`, `w[23:16]`, `w[31:24]` (30_encoding.md R54). -/
def bytesOfWord (w : Word) : List Byte :=
  [w.extractLsb' 0 8, w.extractLsb' 8 8, w.extractLsb' 16 8, w.extractLsb' 24 8]

/-- The words of a binary program file, word i from bytes 4i to 4i+3 (30_encoding.md R59). Bytes after the last whole
word give nothing; a file that has any is rejected before (R60). -/
def wordsOfBytes : List Byte → List Word
  | b0 :: b1 :: b2 :: b3 :: rest => wordOfBytes b0 b1 b2 b3 :: wordsOfBytes rest
  | _ => []

/-! ### Decoding -/

/-- 30_encoding.md R48: total on every word; it does not ask whether the opcode is assigned. -/
def decodeRecord (w : Word) : Record :=
  { opcode := (w &&& 0x3F#32).setWidth 6, operand := (w >>> 6).setWidth 26 }

/-- 40_decode_dispatch.md R76: the operation is selected by the opcode value alone. -/
def dispatch (r : Record) : Except DecodeError Instr :=
  if r.opcode = 42#6 then .ok (.loadConst r.operand)
  else if r.opcode = 23#6 then .ok (.readMem r.operand)
  else if r.opcode = 1#6 then .ok (.writeMem r.operand)
  else if r.opcode = 60#6 then .ok (.bitreverse r.operand)
  else .error (.unknownOpcode r.opcode)

/-- The instruction a word stands for, or the name of its rejection. -/
def decode (w : Word) : Except DecodeError Instr :=
  dispatch (decodeRecord w)

/-- The instruction at the head of a run of bytes, with the bytes after it. -/
def decodeBytes : List Byte → Except DecodeError (Instr × List Byte)
  | b0 :: b1 :: b2 :: b3 :: rest =>
    match decode (wordOfBytes b0 b1 b2 b3) with
    | .ok i => .ok (i, rest)
    | .error e => .error e
  | _ => .error .truncated

/-! ### Encoding -/

/-- 30_encoding.md R51 on a record whose fields have their widths: the operand above the opcode. -/
def encodeRecord (r : Record) : Word :=
  r.operand.setWidth 32 <<< 6 ||| r.opcode.setWidth 32

/-- The record an instruction comes from (opcodes: 30_encoding.md R55). -/
def Instr.record : Instr → Record
  | .loadConst b => { opcode := 42#6, operand := b }
  | .readMem b => { opcode := 23#6, operand := b }
  | .writeMem b => { opcode := 1#6, operand := b }
  | .bitreverse b => { opcode := 60#6, operand := b }

/-- The word of an instruction (30_encoding.md R51, R55). -/
def encode (i : Instr) : Word :=
  encodeRecord i.record

/-- The toolchain's encoder on numbers (30_encoding.md R51): an absent operand is 0, and any integer operand is
reduced mod 2^26 before packing (R53; a negative one too, R66). -/
def encodeOperand (opcode : Opcode) (operand : Option Int) : Word :=
  encodeRecord { opcode := opcode, operand := BitVec.ofInt 26 (operand.getD 0) }

/-! ### The opcode map as rows -/

/-- The mnemonic of an instruction (30_encoding.md R55). -/
def Instr.mnemonic : Instr → String
  | .loadConst _ => "LOAD_CONST"
  | .readMem _ => "READ_MEM"
  | .writeMem _ => "WRITE_MEM"
  | .bitreverse _ => "BITREVERSE"

/-- The complete opcode map, in ascending opcode order (30_encoding.md R55). -/
def opcodeTable : List TableRow :=
  [ { mnemonic := "WRITE_MEM", mask := 0x0000003F#32, pattern := 0x00000001#32 },
    { mnemonic := "READ_MEM", mask := 0x0000003F#32, pattern := 0x00000017#32 },
    { mnemonic := "LOAD_CONST", mask := 0x0000003F#32, pattern := 0x0000002A#32 },
    { mnemonic := "BITREVERSE", mask := 0x0000003F#32, pattern := 0x0000003C#32 } ]

/-- The decoder's answer for an instruction whose `nbits` bits are `w` (bit 0 the least significant bit of the word,
every bit above `nbits` 0): the word is laid out as the four bytes of the binary file and read back. -/
def decodeTableWord (nbits w : Nat) : Option Instr :=
  match decodeBytes (bytesOfWord (BitVec.ofNat 32 (w % 2 ^ nbits))) with
  | .ok (i, _) => some i
  | .error _ => none

end Sys2Proof
end

