-- ==== Sys2Proof/Machine/Fetch.lean ====
section
/-! DEFINITION. What a step does before an instruction runs: fetch, decode, and the cases in which none runs
(40_decode_dispatch.md R73 to R79). -/

namespace Sys2Proof.Machine

/-- `program[ip]` (40_decode_dispatch.md R74); `none` only when `ip` ≥ `N`. -/
def fetch (s : State) : Option Word :=
  s.program[s.ip]?

/-- What the next step comes to. -/
inductive Action where
  /-- It executes this instruction. -/
  | execute (i : Instr)
  /-- It executes none and ends so. -/
  | finish (o : Host.Outcome State Fault Refusal)

/-- 40_decode_dispatch.md R73 to R77. Running with `ip` = `N` halts (R79). An unassigned opcode raises UnknownOpcode
(R77). In Idle, Halted and Faulted no step happens: the state stays as it is (R73; DEDUCED, log entry 6). The parameters are an argument (10_state.md R13). -/
def nextActionWith (p : Params) (s : State) : Action :=
  match s.status.state with
  | .running =>
    if s.ip = s.program.length then .finish (.next (halt s))
    else
      match fetch s with
      | none => .finish (.fault .fetchPastEnd)
      | some w =>
        match decode w with
        | .ok i => .execute i
        | .error _ => .finish (.next (raise p .unknownOpcode s))
  | .idle => .finish (.next s)
  | .halted => .finish (.next s)
  | .faulted => .finish (.next s)

/-- What the next step of this core comes to. -/
def nextAction (s : State) : Action :=
  nextActionWith Config.params s

/-- Carry an action out, `run` being the meaning of the instructions: an executed instruction is followed by the halting
move when `ip` has reached `N` (40_decode_dispatch.md R79; log entry 5). -/
def carryOut (run : Instr → Host.Outcome State Fault Refusal) (a : Action) : Host.Outcome State Fault Refusal :=
  match a with
  | .execute i => settleOutcome (run i)
  | .finish o => o

/-- The state with `w` stored where the next fetch reads, and Running, so that the very next step runs `w`
(log entry 4). -/
def withWord (s : State) (w : Word) : State :=
  { s with
    program := placeWord s.program s.ip w
    status := { state := .running, cause := none, faultIp := none } }

end Sys2Proof.Machine
end

