-- ==== Sys2Proof/Machine/Step.lean ====
section
/-! DEFINITION. One step of the core (40_decode_dispatch.md R73, R82). -/

namespace Sys2Proof.Machine

/-- One step: fetch, decode, execute, and the halting move when `ip` has reached `N`. This is
`stepWith` (Parametric.lean) at this core's parameters. -/
def step (s : State) : Host.Outcome State Fault Refusal :=
  carryOut (fun i => exec i s) (nextAction s)

/-- `s` with the instruction whose `nbits` bits are `w` (every bit above them 0) stored where `step` fetches next and
the core Running: what loading a program that has this word at `ip` leaves (log entry 4). -/
def State.withFetchWord (s : State) (nbits w : Nat) : State :=
  withWord s (BitVec.ofNat 32 (w % 2 ^ nbits))

end Sys2Proof.Machine
end

