-- ==== Sys2Proof/Machine/Assembler.lean ====
section
/-! DEFINITION. The assembler of the toolchain (30_encoding.md R63 to R70). It is outside the hardware (00_scope.md R5):
nothing of the machine uses it. It is here because the spec gives its rules, and to make the words of
95_test_vectors.md readable. A source text is its list of lines, a line its list of characters.
What the spec leaves open of the text (white space, the digits of a literal) is chosen in log entry 11. -/

namespace Sys2Proof.Machine

/-- Why assembly of the whole file ends (30_encoding.md R65). -/
inductive AsmError where
  | unknownInstruction
  | missingOperand
  | invalidOperand
deriving DecidableEq, Repr

/-- The tokens of a line: the runs of characters between white space (30_encoding.md R64). `run` is the run being
read, last character first. -/
def tokensFrom (run : List Char) : List Char → List (List Char)
  | [] => if run = [] then [] else [run.reverse]
  | c :: rest =>
    if c.isWhitespace then
      (if run = [] then tokensFrom [] rest else run.reverse :: tokensFrom [] rest)
    else tokensFrom (c :: run) rest

/-- The tokens of a line. -/
def tokens (line : List Char) : List (List Char) :=
  tokensFrom [] line

/-- The number a run of decimal digits stands for, `acc` being the value of the digits before them. -/
def digitsValue (acc : Nat) : List Char → Option Nat
  | [] => some acc
  | c :: rest => if c.isDigit then digitsValue (acc * 10 + (c.toNat - 48)) rest else none

/-- A base-10 integer literal (30_encoding.md R64), with an optional minus sign (R66). -/
def integerLiteral : List Char → Option Int
  | [] => none
  | '-' :: [] => none
  | '-' :: c :: rest => (digitsValue 0 (c :: rest)).map (fun n => -(n : Int))
  | c :: rest => (digitsValue 0 (c :: rest)).map (fun n => (n : Int))

/-- The opcode of a mnemonic given in any letter case, and whether it takes an operand (30_encoding.md R55, R64). -/
def lookupMnemonic (token : List Char) : Option (Opcode × Bool) :=
  let name := token.map Char.toUpper
  if name = ['L', 'O', 'A', 'D', '_', 'C', 'O', 'N', 'S', 'T'] then some (42#6, true)
  else if name = ['R', 'E', 'A', 'D', '_', 'M', 'E', 'M'] then some (23#6, true)
  else if name = ['W', 'R', 'I', 'T', 'E', '_', 'M', 'E', 'M'] then some (1#6, false)
  else if name = ['B', 'I', 'T', 'R', 'E', 'V', 'E', 'R', 'S', 'E'] then some (60#6, false)
  else none

/-- The word of an instruction's tokens (30_encoding.md R64 to R67): what the opcode does not take is ignored. -/
def assembleTokens (name : List Char) (operands : List (List Char)) : Except AsmError Word :=
  match lookupMnemonic name with
  | none => .error .unknownInstruction
  | some (opcode, false) => .ok (encodeOperand opcode none)
  | some (opcode, true) =>
    match operands with
    | [] => .error .missingOperand
    | literal :: _ =>
      match integerLiteral literal with
      | none => .error .invalidOperand
      | some n => .ok (encodeOperand opcode (some n))

/-- The word a line contributes, or none for a skipped line: a blank one, or one whose first token starts with the
comment marker (30_encoding.md R63; the marker is the OPEN parameter `COMMENT_MARKER` of 00_scope.md R6). -/
def assembleLine (marker : Char) (line : List Char) : Except AsmError (Option Word) :=
  match tokens line with
  | [] => .ok none
  | name :: operands =>
    if name.head? = some marker then .ok none
    else
      match assembleTokens name operands with
      | .ok w => .ok (some w)
      | .error e => .error e

/-- The words of a source text in line order (30_encoding.md R68); one bad line aborts the whole file (R65). -/
def assemble (marker : Char) : List (List Char) → Except AsmError (List Word)
  | [] => .ok []
  | line :: rest =>
    match assembleLine marker line, assemble marker rest with
    | .error e, _ => .error e
    | .ok _, .error e => .error e
    | .ok none, .ok ws => .ok ws
    | .ok (some w), .ok ws => .ok (w :: ws)

/-- The binary program file of a list of words (30_encoding.md R54, R59). -/
def binaryOfWords (words : List Word) : List Byte :=
  words.flatMap bytesOfWord

end Sys2Proof.Machine
end

