-- ==== Sys2Proof/Machine/HostPort.lean ====
section
/-! DEFINITION. The five operations of the host (70_reset_and_hazards.md R128 to R132, 20_memory.md R37, 10_state.md
R26). They come from outside the core, between steps (log entry 9). -/

namespace Sys2Proof.Machine

/-- What the host can ask (70_reset_and_hazards.md R132). -/
inductive HostOp where
  | reset
  | load (bytes : List Byte)
  | readStatus
  | dump (start stop : Nat)
  | readStack
deriving DecidableEq, Repr

/-- What the host is answered. -/
inductive HostReply where
  /-- The operation was accepted and returns nothing (Reset, Load). -/
  | accepted
  /-- ReadStatus: (`state`, `cause`, `fault_ip`). -/
  | status (r : Status)
  /-- Dump: one (address, value) pair per address. -/
  | cells (l : List (Nat × Word))
  /-- Dump: the error of an illegal range; it is no core fault (60_exceptions.md R125). -/
  | rangeOutOfBounds
  /-- ReadStack: the stack, bottom first. -/
  | stack (l : List Word)
  /-- The operation is not accepted in this state and has no effect (93_implementation_defined.md row 15). -/
  | refused
deriving DecidableEq, Repr

/-- Reset, in any state (70_reset_and_hazards.md R128): every piece of the spec's state at its reset value. The model's
own counter of drawn free values goes on, so that a later run draws new ones (log entry 3). -/
def hostReset (s : State) : State :=
  { State.reset with freeDrawn := s.freeDrawn }

/-- Whether a finite `PROG_MAX` is exceeded (30_encoding.md R62). -/
def programTooLong (p : Params) (words : Nat) : Bool :=
  match p.progMax with
  | none => false
  | some n => decide (n < words)

/-- Load(bytes) in `Idle` (70_reset_and_hazards.md R130): both length checks before any word is written, the length in
bytes first (60_exceptions.md R114); then the program is loaded and started. A program of no words is halted at once
(30_encoding.md R61). -/
def loadProgram (p : Params) (bytes : List Byte) (s : State) : State :=
  if bytes.length % 4 ≠ 0 then raiseLoad .malformedBinaryLength s
  else if programTooLong p (bytes.length / 4) then raiseLoad .programTooLarge s
  else
    settle { s with
      program := wordsOfBytes bytes
      status := { state := .running, cause := none, faultIp := none } }

/-- A legal dump request: `0 ≤ start ≤ end < MEM_SIZE` (20_memory.md R37). -/
def dumpRangeLegal (start stop : Nat) : Bool :=
  decide (start ≤ stop) && decide (stop < Config.memSize)

/-- The pairs (a, memory[a]) for a = start, …, stop (20_memory.md R37). -/
def dumpCells (start stop : Nat) (s : State) : List (Nat × Word) :=
  (List.range' start (stop + 1 - start)).map (fun a => (a, memRead a s))

/-- One host operation: its answer, and the state it leaves. Each is answered only in the states
70_reset_and_hazards.md R132 lists; in any other it is refused and has no effect. -/
def hostOpWith (p : Params) (op : HostOp) (s : State) : HostReply × State :=
  match op with
  | .reset => (.accepted, hostReset s)
  | .load bytes =>
    if s.status.state = .idle then (.accepted, loadProgram p bytes s) else (.refused, s)
  | .readStatus => (.status s.status, s)
  | .dump start stop =>
    if s.status.state = .halted then
      if dumpRangeLegal start stop then (.cells (dumpCells start stop s), s)
      else (.rangeOutOfBounds, s)
    else (.refused, s)
  | .readStack =>
    if s.status.state = .halted then (.stack s.stack.reverse, s) else (.refused, s)

/-- A host operation on this core. -/
def hostOp (op : HostOp) (s : State) : HostReply × State :=
  hostOpWith Config.params op s

end Sys2Proof.Machine
end

