-- ==== Sys2Proof/Machine/Parametric.lean ====
section
/-! DEFINITION. The step and the run with the OPEN parameters as an argument (00_scope.md R6, 10_state.md R13: "the model
takes them as parameters of its step"). `exec` and `step` are these at this core's parameters. -/

namespace Sys2Proof.Machine

/-- The meaning of an instruction under given parameters. -/
def execWith (p : Params) (i : Instr) (s : State) : Host.Outcome State Fault Refusal :=
  match i with
  | .loadConst b => loadConstWith p b s
  | .readMem b => readMemWith p b s
  | .writeMem b => writeMemWith p b s
  | .bitreverse b => bitreverseWith p b s

/-- One step under given parameters (40_decode_dispatch.md R73, R82). -/
def stepWith (p : Params) (s : State) : Host.Outcome State Fault Refusal :=
  carryOut (fun i => execWith p i s) (nextActionWith p s)

/-- `k` steps under given parameters (70_reset_and_hazards.md R131). -/
def runStepsWith (p : Params) : Nat → State → Host.Outcome State Fault Refusal
  | 0, s => .next s
  | k + 1, s =>
    match stepWith p s with
    | .next t => runStepsWith p k t
    | .fault r => .fault r
    | .refused r => .refused r

end Sys2Proof.Machine
end

