-- ==== Sys2Proof/Safety.lean ====
section
/-! DEFINITION. The terms the statements use: the legal states, the end of a run, what a run stores, and the step of
40_decode_dispatch.md R82 written out as the spec writes it. -/

namespace Sys2Proof.Machine

/-- The legal combinations of the status record (10_state.md R24). -/
def statusLegal (s : State) : Prop :=
  match s.status.state, s.status.cause, s.status.faultIp with
  | .idle, none, none => True
  | .running, none, none => s.ip < s.program.length
  | .halted, none, none => s.ip = s.program.length
  | .faulted, some c, some i => c.isLoad = false ∧ i < s.program.length
  | .faulted, some c, none => c.isLoad = true
  | _, _, _ => False

/-- Depth within a finite `STACK_CAP` (10_state.md R18). -/
def depthWithin (p : Params) (depth : Nat) : Prop :=
  ∀ n, p.stackCap = some n → depth ≤ n

/-- The invariant of the core under given parameters: memory in its canonical form, `ip` within the program (10_state.md R15), a legal status
(R24), the depth within `STACK_CAP` (R18), and everything still at its reset value while Idle (R27, R130). -/
structure CoreInvWith (p : Params) (s : State) : Prop where
  memory_wf : Memory.wf s.memory = true
  ip_le : s.ip ≤ s.program.length
  status_legal : statusLegal s
  depth_le : depthWithin p s.stack.length
  idle_fresh : s.status.state = .idle →
    s.ip = 0 ∧ s.program = [] ∧ s.stack = [] ∧ s.memory = []

/-- The invariant of this core. -/
abbrev CoreInv (s : State) : Prop :=
  CoreInvWith Config.params s

/-- A run has ended (40_decode_dispatch.md R83). -/
def ended (s : State) : Prop :=
  s.status.state = .halted ∨ s.status.state = .faulted

/-- A core just started on a program: everything but the program as reset leaves it (70_reset_and_hazards.md R130). -/
def started (s : State) : Prop :=
  s.status = { state := .running, cause := none, faultIp := none } ∧
    s.ip = 0 ∧ s.stack = [] ∧ s.memory = []

/-- `k` steps of the core (70_reset_and_hazards.md R131). -/
def runSteps (k : Nat) (s : State) : Host.Outcome State Fault Refusal :=
  Host.Core.run Sys2Proof.core k s

/-- The states the core can be in: from reset, by steps and by host operations (70_reset_and_hazards.md R132). -/
inductive Reachable : State → Prop where
  | reset : Reachable State.reset
  | step (s t : State) (h : Reachable s) (hs : step s = .next t) : Reachable t
  | host (s : State) (op : HostOp) (h : Reachable s) : Reachable (hostOp op s).2

/-- `t` is `s` after entry into the execution fault `c` (60_exceptions.md R110): the status record, `ip` not advanced,
the program kept. Nothing is said of the stack and memory (R112). -/
def faultEntered (c : Cause) (s t : State) : Prop :=
  t.status = { state := .faulted, cause := some c, faultIp := some s.ip } ∧
    t.ip = s.ip ∧ t.program = s.program

/-- The outcome is the entry into the fault `c` from `s`. -/
def faultsWith (c : Cause) (s : State) (o : Host.Outcome State Fault Refusal) : Prop :=
  ∃ t, o = .next t ∧ faultEntered c s t

/-- The states in which a host operation is accepted (70_reset_and_hazards.md R132). -/
def acceptedIn (op : HostOp) (r : RunState) : Bool :=
  match op with
  | .reset => true
  | .load _ => r == .idle
  | .readStatus => true
  | .dump _ _ => r == .halted
  | .readStack => r == .halted

/-- The opcode of the next instruction, whatever it is. -/
def nextOpcode (s : State) : Option Opcode :=
  (fetch s).map (fun w => (decodeRecord w).opcode)

/-- What the next step stores into data memory: address and value, or none. -/
def storeOf (s : State) : Option (Nat × Word) :=
  match nextAction s, s.stack with
  | .execute (.writeMem _), a :: v :: _ =>
    if stackAddress a < Config.memSize then some (stackAddress a, v) else none
  | _, _ => none

/-- What the next `k` steps store, oldest first. -/
def storesOf : Nat → State → List (Nat × Word)
  | 0, _ => []
  | k + 1, s =>
    (storeOf s).toList ++
      match step s with
      | .next t => storesOf k t
      | _ => []

/-- The value last stored to `a`, or 0 if none was (41_stack_memory.md R88). -/
def lastStored (a : Nat) (stores : List (Nat × Word)) : Word :=
  (stores.reverse.lookup a).getD 0#32

/-- How many of the words have this opcode. -/
def countOpcode (opcode : Opcode) (words : List Word) : Nat :=
  words.countP (fun w => (decodeRecord w).opcode == opcode)

/-- The step as 40_decode_dispatch.md R82 writes it, on the raw word, without the halting move after the last
instruction. The one departure: in the arm of opcode 60 the push after the pop makes no capacity check, as
42_alu_bitreverse.md R103 and R107 say that it always finds room (log entry 10). -/
def literalStep (s : State) : State :=
  if s.ip = s.program.length then halt s
  else
    let w := (s.program[s.ip]?).getD 0#32
    let opcode := (w &&& 0x3F#32).toNat
    let operand := w >>> 6
    if opcode = 42 then
      if Config.params.stackCap = some s.stack.length then raise Config.params .stackOverflow s
      else { s with stack := operand :: s.stack, ip := s.ip + 1 }
    else if opcode = 23 then
      if operand.toNat ≥ Config.memSize then raise Config.params .addressOutOfRange s
      else if Config.params.stackCap = some s.stack.length then raise Config.params .stackOverflow s
      else { s with stack := Memory.read s.memory operand.toNat :: s.stack, ip := s.ip + 1 }
    else if opcode = 1 then
      match s.stack with
      | a :: v :: rest =>
        if a.toNat ≥ Config.memSize then raise Config.params .addressOutOfRange s
        else { s with stack := rest, memory := Memory.write s.memory a.toNat v, ip := s.ip + 1 }
      | _ => raise Config.params .stackUnderflow s
    else if opcode = 60 then
      match s.stack with
      | v :: rest => { s with stack := bitrev32 v :: rest, ip := s.ip + 1 }
      | [] => raise Config.params .stackUnderflow s
    else raise Config.params .unknownOpcode s

end Sys2Proof.Machine
end

