-- ==== Sys2Proof/Certificates/Slice0/Obligations.lean ====
section
/-! DEFINITION. The statements about the core, each from a numbered rule of spec/ or from the sections it names. -/

open Sys2Proof Sys2Proof.Machine

/-! ### Encoding -/

/-- 30_encoding.md R48. -/
def Obligations.DecodeSplitsEveryWordAtBitSix : Prop :=
  ∀ w : Word,
    (decodeRecord w).opcode = w.extractLsb' 0 6 ∧
    (decodeRecord w).opcode.setWidth 32 = w &&& 0x3F#32 ∧
    (decodeRecord w).operand = w.extractLsb' 6 26 ∧
    (decodeRecord w).operand.setWidth 32 = w >>> 6

/-- 30_encoding.md R52. -/
def Obligations.RecordsAndWordsRoundTrip : Prop :=
  (∀ r : Record, decodeRecord (encodeRecord r) = r) ∧
  (∀ w : Word, encodeRecord (decodeRecord w) = w)

/-- Decode and encode agree on all four instructions, with every operand, on words and on the bytes of a file. -/
def Obligations.DecodeInvertsEncodeOnAllInstructions : Prop :=
  (∀ i : Instr, decode (encode i) = .ok i) ∧
  (∀ (i : Instr) (rest : List Byte), decodeBytes (bytesOfWord (encode i) ++ rest) = .ok (i, rest)) ∧
  (∀ (w : Word) (i : Instr), decode w = .ok i → encode i = w)

/-- 30_encoding.md R51, R53. -/
def Obligations.EncoderPacksOperandModTwoPow26 : Prop :=
  (∀ (a : Opcode) (b : Int),
    (encodeOperand a (some b)).toNat = ((b % 2 ^ 26).toNat <<< 6 ||| a.toNat) ∧
    encodeOperand a (some (b + 2 ^ 26)) = encodeOperand a (some b)) ∧
  (∀ a : Opcode, encodeOperand a (some (2 ^ 26)) = encodeOperand a (some 0)) ∧
  (∀ a : Opcode, encodeOperand a none = encodeOperand a (some 0)) ∧
  (∀ (a : Opcode) (b : Option Int),
    (bytesOfWord (encodeOperand a b)).length = 4 ∧
    (encodeOperand a b).toNat =
      ((bytesOfWord (encodeOperand a b)).map BitVec.toNat).foldr (fun x n => x + 256 * n) 0)

/-- 30_encoding.md R54. -/
def Obligations.WordsAreStoredLittleEndian : Prop :=
  (∀ w : Word, ∃ b0 b1 b2 b3 : Byte,
    bytesOfWord w = [b0, b1, b2, b3] ∧
    b0 = w.extractLsb' 0 8 ∧ b1 = w.extractLsb' 8 8 ∧ b2 = w.extractLsb' 16 8 ∧ b3 = w.extractLsb' 24 8 ∧
    wordOfBytes b0 b1 b2 b3 = w) ∧
  (∀ b0 b1 b2 b3 : Byte,
    bytesOfWord (wordOfBytes b0 b1 b2 b3) = [b0, b1, b2, b3] ∧
    (wordOfBytes b0 b1 b2 b3).toNat =
      (b0.toNat ||| b1.toNat <<< 8 ||| b2.toNat <<< 16 ||| b3.toNat <<< 24)) ∧
  bytesOfWord (encode (.loadConst 5#26)) = [0x6A#8, 0x01#8, 0x00#8, 0x00#8]

/-- 30_encoding.md R59; the last clause says what the load does with the words (70_reset_and_hazards.md R130). -/
def Obligations.FileIsCutIntoWordsInOrder : Prop :=
  (∀ bytes : List Byte, bytes.length % 4 = 0 →
    (wordsOfBytes bytes).length = bytes.length / 4 ∧
    ∀ i, i < bytes.length / 4 → ∃ b0 b1 b2 b3 : Byte,
      bytes[4 * i]? = some b0 ∧ bytes[4 * i + 1]? = some b1 ∧
      bytes[4 * i + 2]? = some b2 ∧ bytes[4 * i + 3]? = some b3 ∧
      (wordsOfBytes bytes)[i]? = some (wordOfBytes b0 b1 b2 b3)) ∧
  (∀ (p : Params) (bytes : List Byte) (s : State),
    bytes.length % 4 = 0 → programTooLong p (bytes.length / 4) = false → s.status.state = .idle →
    (hostOpWith p (.load bytes) s).2.program = wordsOfBytes bytes)

/-- 30_encoding.md R55: the complete opcode map, every other opcode value unassigned. -/
def Obligations.OpcodeMapIsComplete : Prop :=
  (∀ w : Word, w &&& 0x3F#32 = 1#32 → decode w = .ok (.writeMem (w.extractLsb' 6 26))) ∧
  (∀ w : Word, w &&& 0x3F#32 = 23#32 → decode w = .ok (.readMem (w.extractLsb' 6 26))) ∧
  (∀ w : Word, w &&& 0x3F#32 = 42#32 → decode w = .ok (.loadConst (w.extractLsb' 6 26))) ∧
  (∀ w : Word, w &&& 0x3F#32 = 60#32 → decode w = .ok (.bitreverse (w.extractLsb' 6 26))) ∧
  (∀ w : Word, w &&& 0x3F#32 ≠ 1#32 → w &&& 0x3F#32 ≠ 23#32 → w &&& 0x3F#32 ≠ 42#32 → w &&& 0x3F#32 ≠ 60#32 →
    decode w = .error (.unknownOpcode (w.extractLsb' 0 6)))

/-- Words written out from the encodings of 30_encoding.md R55 and 95_test_vectors.md L2-A. -/
def Obligations.SpecWordsDecodeToTheirInstructions : Prop :=
  decode 0b00000000000000000000000101101010#32 = .ok (.loadConst 5#26) ∧
  decode 0b11111111111111111111111111101010#32 = .ok (.loadConst 0x3FFFFFF#26) ∧
  decode 0b00000000000000001111111111010111#32 = .ok (.readMem 1023#26) ∧
  decode 0b00000000000000000000000000000001#32 = .ok (.writeMem 0#26) ∧
  decode 0b11111111111111111111111111000001#32 = .ok (.writeMem 0x3FFFFFF#26) ∧
  decode 0b00000000000000000000000000111100#32 = .ok (.bitreverse 0#26) ∧
  decode 0b00000000000000000000000000000000#32 = .error (.unknownOpcode 0#6) ∧
  decode 0b11111111111111111111111111111111#32 = .error (.unknownOpcode 63#6)

/-- 30_encoding.md R56. -/
def Obligations.IgnoredOperandBitsChangeNothing : Prop :=
  (∀ (s t : State) (w w' : Word), fetch s = some w → (w &&& 0x3F#32 = 1#32 ∨ w &&& 0x3F#32 = 60#32) →
    w' &&& 0x3F#32 = w &&& 0x3F#32 → step s = .next t →
    step { s with program := s.program.set s.ip w' } = .next { t with program := s.program.set s.ip w' }) ∧
  (∀ w : Word, (w &&& 0x3F#32 = 1#32 → ∃ b, decode w = .ok (.writeMem b)) ∧
    (w &&& 0x3F#32 = 60#32 → ∃ b, decode w = .ok (.bitreverse b))) ∧
  (∀ (name : List Char) (operands : List (List Char)) (w : Word), assembleTokens name operands = .ok w →
    (w &&& 0x3F#32 = 1#32 ∨ w &&& 0x3F#32 = 60#32) → w >>> 6 = 0#32)

/-! ### The instructions -/

/-- 41_stack_memory.md R84. The overflow clause is under any parameters, `exec` being the meaning at this core's. -/
def Obligations.LoadConstPushesItsImmediate : Prop :=
  (∀ w : Word, w &&& 0x3F#32 = 42#32 → decode w = .ok (.loadConst (w.extractLsb' 6 26))) ∧
  (∀ (b : Operand) (s : State), stackFull Config.params s.stack = false →
    exec (.loadConst b) s = .next { s with stack := b.setWidth 32 :: s.stack, ip := s.ip + 1 }) ∧
  (∀ (p : Params) (b : Operand) (s : State), p.wellFormed = true → p.stackCap = some s.stack.length →
    faultsWith .stackOverflow s (loadConstWith p b s)) ∧
  (∀ (p : Params) (b : Operand) (s : State), p.wellFormed = true → p.stackCap ≠ some s.stack.length →
    loadConstWith p b s = .next { s with stack := b.setWidth 32 :: s.stack, ip := s.ip + 1 }) ∧
  (∀ (b : Operand) (s : State), exec (.loadConst b) s = loadConstWith Config.params b s) ∧
  (∀ b : Operand, (b.setWidth 32 : Word).toNat = b.toNat ∧ b.toNat < 2 ^ 26)

/-- The effect, the check order and the faults of 41_stack_memory.md R85. -/
def Obligations.ReadMemPushesTheAddressedCell : Prop :=
  (∀ w : Word, w &&& 0x3F#32 = 23#32 → decode w = .ok (.readMem (w.extractLsb' 6 26))) ∧
  (∀ (b : Operand) (s : State), b.toNat < Config.memSize → stackFull Config.params s.stack = false →
    exec (.readMem b) s = .next { s with stack := memRead b.toNat s :: s.stack, ip := s.ip + 1 }) ∧
  (∀ (p : Params) (b : Operand) (s : State), Config.memSize ≤ b.toNat →
    faultsWith .addressOutOfRange s (readMemWith p b s)) ∧
  (∀ (p : Params) (b : Operand) (s : State), p.wellFormed = true → b.toNat < Config.memSize →
    p.stackCap = some s.stack.length → faultsWith .stackOverflow s (readMemWith p b s)) ∧
  (∀ (p : Params) (b : Operand) (s : State), p.wellFormed = true → b.toNat < Config.memSize →
    p.stackCap ≠ some s.stack.length →
    readMemWith p b s = .next { s with stack := memRead b.toNat s :: s.stack, ip := s.ip + 1 }) ∧
  (∀ (b : Operand) (s : State), exec (.readMem b) s = readMemWith Config.params b s)

/-- 41_stack_memory.md R86: the top entry is the address and the entry below it the value. -/
def Obligations.WriteMemStoresSecondEntryAtTopEntry : Prop :=
  (∀ w : Word, w &&& 0x3F#32 = 1#32 → decode w = .ok (.writeMem (w.extractLsb' 6 26))) ∧
  (∀ (b : Operand) (s : State) (a v : Word) (rest : List Word), s.stack = a :: v :: rest →
    a.toNat < Config.memSize →
    exec (.writeMem b) s =
      .next { s with stack := rest, memory := Memory.write s.memory a.toNat v, ip := s.ip + 1 } ∧
    ∀ c, Memory.read (Memory.write s.memory a.toNat v) c = if c = a.toNat then v else memRead c s) ∧
  (∀ (b : Operand) (s : State), s.stack.length < 2 → faultsWith .stackUnderflow s (exec (.writeMem b) s)) ∧
  (∀ (b : Operand) (s : State) (a v : Word) (rest : List Word), s.stack = a :: v :: rest →
    Config.memSize ≤ a.toNat → faultsWith .addressOutOfRange s (exec (.writeMem b) s)) ∧
  encodeOperand 1#6 none = 0x00000001#32

/-- 42_alu_bitreverse.md R103; the third clause says that it overflows under no parameters. -/
def Obligations.BitreverseReversesTheTopEntry : Prop :=
  (∀ w : Word, w &&& 0x3F#32 = 60#32 → decode w = .ok (.bitreverse (w.extractLsb' 6 26))) ∧
  (∀ (b : Operand) (s : State) (v : Word) (rest : List Word), s.stack = v :: rest →
    exec (.bitreverse b) s = .next { s with stack := bitrev32 v :: rest, ip := s.ip + 1 }) ∧
  (∀ (p : Params) (b : Operand) (s : State), ¬ faultsWith .stackOverflow s (bitreverseWith p b s)) ∧
  (∀ (b : Operand) (s : State), s.stack = [] → faultsWith .stackUnderflow s (exec (.bitreverse b) s)) ∧
  encodeOperand 60#6 none = 0x0000003C#32 ∧
  bitrev32 0#32 = 0#32 ∧ bitrev32 0xFFFFFFFF#32 = 0xFFFFFFFF#32 ∧
  bitrev32 1#32 = 0x80000000#32 ∧ bitrev32 0x80000000#32 = 1#32

/-- 42_alu_bitreverse.md R102. -/
def Obligations.BitrevMovesBitIToBit31MinusI : Prop :=
  ∀ (v : Word) (i : Nat), i < 32 → (bitrev32 v).getLsbD (31 - i) = v.getLsbD i

/-- 42_alu_bitreverse.md R105. -/
def Obligations.BitreverseTwiceRestoresTheStack : Prop :=
  (∀ v : Word, bitrev32 (bitrev32 v) = v) ∧
  (∀ (b b' : Operand) (s : State), s.stack ≠ [] → ∃ t u,
    exec (.bitreverse b) s = .next t ∧ exec (.bitreverse b') t = .next u ∧ u.stack = s.stack)

/-- The frame of a completed instruction: `ip`, the popped and pushed entries and WRITE_MEM's one cell change, and
nothing else does. -/
def Obligations.CompletedInstructionsKeepEverythingElse : Prop :=
  ∀ (i : Instr) (s t : State), s.status.state = .running → exec i s = .next t → t.status.state = .running →
    t.program = s.program ∧ t.status = s.status ∧ t.ip = s.ip + 1 ∧
    match i with
    | .loadConst _ => t.stack.tail = s.stack ∧ t.stack ≠ [] ∧ ∀ a, memRead a t = memRead a s
    | .readMem _ => t.stack.tail = s.stack ∧ t.stack ≠ [] ∧ ∀ a, memRead a t = memRead a s
    | .bitreverse _ => t.stack.tail = s.stack.tail ∧ t.stack.length = s.stack.length ∧ ∀ a, memRead a t = memRead a s
    | .writeMem _ => t.stack = s.stack.drop 2 ∧
        ∀ w, s.stack.head? = some w → ∀ a, a ≠ stackAddress w → memRead a t = memRead a s

/-! ### Stack and memory -/

/-- 10_state.md R20, the stack written bottom first as the rule writes it. -/
def Obligations.PushAppendsOrOverflows : Prop :=
  ∀ (p : Params) (v : Word) (s : State), p.wellFormed = true →
    (p.stackCap = some s.stack.length →
      push p v s = .error .stackOverflow ∧ faultsWith .stackOverflow s (complete p s (push p v s))) ∧
    (p.stackCap ≠ some s.stack.length → ∃ t, push p v s = .ok t ∧
      t.stack.reverse = s.stack.reverse ++ [v] ∧ t.stack.length = s.stack.length + 1 ∧
      t = { s with stack := t.stack })

/-- 00_scope.md R6: this core's `STACK_CAP` is `none` or at least 2, and `MEM_SIZE` lies in its range. -/
def Obligations.ParametersAreInTheirRanges : Prop :=
  Config.params.wellFormed = true ∧ memSizeWellFormed Config.memSize = true ∧ Config.memSize = 1024

/-- 20_memory.md R36. -/
def Obligations.MemWriteChangesExactlyItsCell : Prop :=
  ∀ (a : Nat) (v : Word) (s : State), a < Config.memSize →
    (∀ c, memRead c (memWrite a v s) = if c = a then v else memRead c s) ∧
    memWrite a v s = { s with memory := (memWrite a v s).memory }

/-- The canonical form makes memories that read the same equal data. -/
def Obligations.CanonicalMemoriesAreEqualWhenTheyReadEqual : Prop :=
  ∀ m m' : Memory, Memory.wf m = true → Memory.wf m' = true →
    (∀ a, Memory.read m a = Memory.read m' a) → m = m'

/-- 10_state.md R22: data memory is mutated only by WRITE_MEM, in the one cell its top entry names. -/
def Obligations.OnlyWriteMemChangesMemory : Prop :=
  ∀ (s t : State) (a : Nat), step s = .next t → t.status.state ≠ .faulted → memRead a t ≠ memRead a s →
    ∃ (b : Operand) (w v : Word) (rest : List Word), nextAction s = .execute (.writeMem b) ∧
      s.stack = w :: v :: rest ∧ stackAddress w = a ∧ a < Config.memSize ∧ memRead a t = v

/-- 20_memory.md R43. -/
def Obligations.NoRunChangesTheProgram : Prop :=
  ∀ (k : Nat) (s t : State), runSteps k s = .next t → t.program = s.program

/-! ### The step -/

/-- A step runs the decoded instruction and then takes the halting move if `ip` has reached `N`. -/
def Obligations.StepRunsTheDecodedInstruction : Prop :=
  ∀ (s t : State) (w : Word) (i : Instr), s.status.state = .running → fetch s = some w → decode w = .ok i →
    exec i s = .next t →
    step s = .next (if t.status.state = .running ∧ t.ip = t.program.length then
      { t with status := { state := .halted, cause := none, faultIp := none } } else t)

/-- 40_decode_dispatch.md R77. -/
def Obligations.UnassignedOpcodeRaisesUnknownOpcode : Prop :=
  ∀ (s : State) (w : Word), s.status.state = .running → fetch s = some w →
    w &&& 0x3F#32 ≠ 1#32 → w &&& 0x3F#32 ≠ 23#32 → w &&& 0x3F#32 ≠ 42#32 → w &&& 0x3F#32 ≠ 60#32 →
    faultsWith .unknownOpcode s (step s)

/-- When no instruction runs (40_decode_dispatch.md R73, R79): Running at `ip` = `N` moves to Halted, and in Idle, Halted
and Faulted the state stays. That "no step happens" is an unchanged state is the model's reading (log entry 6). -/
def Obligations.NoInstructionRunsOutsideRunning : Prop :=
  ∀ s : State,
    (s.status.state ≠ .running → step s = .next s) ∧
    (s.status.state = .running → s.ip = s.program.length →
      step s = .next { s with status := { state := .halted, cause := none, faultIp := none } })

/-- 40_decode_dispatch.md R78. -/
def Obligations.IpAdvancesByOneExactlyOnCompletion : Prop :=
  ∀ s t : State, step s = .next t →
    ((∃ i, nextAction s = .execute i) → t.status.state ≠ .faulted → t.ip = s.ip + 1) ∧
    ((¬ ∃ i, nextAction s = .execute i) → t.ip = s.ip) ∧
    (s.status.state = .running → t.status.state = .faulted →
      t.ip = s.ip ∧ t.status.faultIp = some s.ip)

/-- The step is 40_decode_dispatch.md R82's pseudocode, written out on the raw word, followed by the halting move that
the model takes at once (log entry 5). In the arm of opcode 60 `literalStep` pushes without the check of 10_state.md R20
that R82's `push` would make: 42_alu_bitreverse.md R103 and R107 say that the push after the pop always finds room
(the model's choice for states above the cap, log entry 10). -/
def Obligations.StepIsTheSpecPseudocode : Prop :=
  ∀ s : State, s.status.state = .running → s.ip ≤ s.program.length →
    step s = .next (settle (literalStep s)) ∧
    (s.ip + 1 < s.program.length → step s = .next (literalStep s))

/-! ### Faults -/

/-- 60_exceptions.md R110. -/
def Obligations.FaultEntryRecordsCauseAndIndexAndStops : Prop :=
  (∀ (k : Nat) (s t : State), s.status.state = .running → step s = .next t → t.status.state = .faulted →
    (∃ c, c.isLoad = false ∧ faultEntered c s t) ∧
    (∀ u, runSteps k t = .next u → u.status = t.status ∧ u.ip = s.ip ∧ ∀ i, nextAction u ≠ .execute i)) ∧
  (∀ (p : Params) (bytes : List Byte) (s t : State), s.status.state = .idle →
    t = (hostOpWith p (.load bytes) s).2 → t.status.state = .faulted →
    ∃ c, c.isLoad = true ∧ t = { s with status := { state := .faulted, cause := some c, faultIp := none } })

/-- 60_exceptions.md R109: the table, row by row, every "yes" reached and every "no" excluded. -/
def Obligations.EachInstructionRaisesExactlyItsFaults : Prop :=
  (∀ (name : String) (c : Cause),
    (∃ (p : Params) (i : Instr) (s : State), i.mnemonic = name ∧ p.wellFormed = true ∧
      faultsWith c s (execWith p i s)) ↔
    (name, c) ∈ [("LOAD_CONST", Cause.stackOverflow), ("READ_MEM", Cause.addressOutOfRange),
      ("READ_MEM", Cause.stackOverflow), ("WRITE_MEM", Cause.stackUnderflow),
      ("WRITE_MEM", Cause.addressOutOfRange), ("BITREVERSE", Cause.stackUnderflow)]) ∧
  (∀ (s : State) (w : Word) (c : Cause), s.status.state = .running → fetch s = some w →
    (decodeRecord w).assigned = false → (faultsWith c s (step s) ↔ c = .unknownOpcode)) ∧
  (∀ (i : Instr) (s : State), exec i s = execWith Config.params i s)

/-- 70_reset_and_hazards.md R129. -/
def Obligations.OnlyResetLeavesAnEndedRun : Prop :=
  (∀ s t : State, ended s → (step s = .next t ∨ ∃ op, op ≠ .reset ∧ t = (hostOp op s).2) →
    ended t ∧ t.status = s.status ∧ ∀ i, nextAction t ≠ .execute i) ∧
  (∀ s t : State, t = (hostOp .reset s).2 →
    t.status = { state := .idle, cause := none, faultIp := none } ∧
    t.program = [] ∧ t.stack = [] ∧ ∀ a, memRead a t = 0#32)

/-- 60_exceptions.md R112: outside Halted no host operation's answer depends on the stack or memory. -/
def Obligations.HostLearnsNothingOfDataOutsideHalted : Prop :=
  ∀ (op : HostOp) (s : State) (stack : List Word) (memory : Memory), s.status.state ≠ .halted →
    (hostOp op { s with stack := stack, memory := memory }).1 = (hostOp op s).1 ∧
    (∀ start stop, (hostOp (.dump start stop) s).1 = .refused) ∧ (hostOp .readStack s).1 = .refused ∧
    (hostOp .readStatus s).1 = .status s.status

/-! ### Reset and the host -/

/-- 70_reset_and_hazards.md R128, with the values of 10_state.md R27. -/
def Obligations.ResetGivesEveryStateItsValue : Prop :=
  (∀ s t : State, (t = State.reset ∨ t = (hostOp .reset s).2) →
    t.ip = 0 ∧ t.stack = [] ∧ (∀ a, a < Config.memSize → memRead a t = 0#32) ∧ t.program = [] ∧
    t.status = { state := .idle, cause := none, faultIp := none }) ∧
  (∀ s : State, (hostOp .reset s).1 = .accepted)

/-- 30_encoding.md R60, R62 and 60_exceptions.md R124; the first check is the length in bytes. -/
def Obligations.BadFilesAreRefusedBeforeAnyWordIsLoaded : Prop :=
  ∀ (p : Params) (bytes : List Byte) (s : State), s.status.state = .idle →
    (bytes.length % 4 ≠ 0 → (hostOpWith p (.load bytes) s).2 =
      { s with status := { state := .faulted, cause := some .malformedBinaryLength, faultIp := none } }) ∧
    (∀ n, p.progMax = some n → bytes.length % 4 = 0 → n < bytes.length / 4 →
      (hostOpWith p (.load bytes) s).2 =
        { s with status := { state := .faulted, cause := some .programTooLarge, faultIp := none } }) ∧
    (bytes.length % 4 = 0 → (∀ n, p.progMax = some n → bytes.length / 4 ≤ n) →
      (hostOpWith p (.load bytes) s).2.status.state ≠ .faulted ∧
      (hostOpWith p (.load bytes) s).2.program = wordsOfBytes bytes)

/-- The successful load of 70_reset_and_hazards.md R130: the words are in the store, everything else is kept, and the
core is Running on the first of them. -/
def Obligations.LoadStoresTheProgramAndStartsIt : Prop :=
  ∀ (p : Params) (bytes : List Byte) (s : State), s.status.state = .idle → bytes.length % 4 = 0 →
    (∀ n, p.progMax = some n → bytes.length / 4 ≤ n) → s.ip < bytes.length / 4 →
    hostOpWith p (.load bytes) s = (.accepted, { s with
      program := wordsOfBytes bytes, status := { state := .running, cause := none, faultIp := none } }) ∧
    (wordsOfBytes bytes).length = bytes.length / 4

/-- 30_encoding.md R61. -/
def Obligations.EmptyProgramIsHaltedAtOnce : Prop :=
  ∀ (p : Params) (t : State), t = (hostOpWith p (.load []) State.reset).2 →
    t.status = { state := .halted, cause := none, faultIp := none } ∧ t.ip = 0 ∧ t.program = [] ∧
    t.stack = [] ∧ ∀ a, memRead a t = 0#32

/-- 20_memory.md R37. -/
def Obligations.DumpReadsOutTheInclusiveRange : Prop :=
  ∀ (start stop : Nat) (s : State),
    (hostOp (.dump start stop) s).2 = s ∧
    (s.status.state ≠ .halted → (hostOp (.dump start stop) s).1 = .refused) ∧
    (s.status.state = .halted → ¬ (start ≤ stop ∧ stop < Config.memSize) →
      (hostOp (.dump start stop) s).1 = .rangeOutOfBounds) ∧
    (s.status.state = .halted → start ≤ stop → stop < Config.memSize →
      ∃ l, (hostOp (.dump start stop) s).1 = .cells l ∧ l.length = stop - start + 1 ∧
        ∀ k, k ≤ stop - start → l[k]? = some (start + k, memRead (start + k) s))

/-- 70_reset_and_hazards.md R132: where each operation is accepted, and that a refused one and a read change nothing. -/
def Obligations.HostOperationsAreAnsweredOnlyWhereListed : Prop :=
  ∀ (op : HostOp) (s : State),
    ((hostOp op s).1 = .refused ↔ acceptedIn op s.status.state = false) ∧
    (acceptedIn op s.status.state = false → (hostOp op s).2 = s) ∧
    (op = .readStatus → hostOp op s = (.status s.status, s)) ∧
    (op = .readStack → s.status.state = .halted → hostOp op s = (.stack s.stack.reverse, s)) ∧
    (op = .reset → hostOp op s = (.accepted, { State.reset with freeDrawn := s.freeDrawn })) ∧
    (∀ start stop, op = .dump start stop → (hostOp op s).2 = s ∧
      (s.status.state = .halted → (hostOp op s).1 =
        if start ≤ stop ∧ stop < Config.memSize then
          .cells ((List.range' start (stop + 1 - start)).map (fun a => (a, memRead a s)))
        else .rangeOutOfBounds)) ∧
    (op ≠ .reset → (hostOp op s).2.ip = s.ip ∧ (hostOp op s).2.stack = s.stack ∧
      (hostOp op s).2.memory = s.memory) ∧
    (∀ bytes, op = .load bytes → s.status.state = .idle →
      hostOp op s = (.accepted, loadProgram Config.params bytes s))

/-! ### Invariants and whole runs -/

/-- The invariant holds at reset. -/
def Obligations.ResetSatisfiesTheInvariant : Prop :=
  CoreInv State.reset

/-- Every step keeps the invariant, and answers a next state from it. -/
def Obligations.StepKeepsTheInvariant : Prop :=
  ∀ s : State, CoreInv s → ∃ t, step s = .next t ∧ CoreInv t

/-- Every host operation keeps the invariant. -/
def Obligations.HostOperationsKeepTheInvariant : Prop :=
  ∀ (op : HostOp) (s : State), CoreInv s → CoreInv (hostOp op s).2

/-- 10_state.md R24: no other combination of the status record is reachable. -/
def Obligations.ReachableStatusIsLegal : Prop :=
  ∀ s : State, Reachable s →
    (s.status = { state := .idle, cause := none, faultIp := none }) ∨
    (s.status = { state := .running, cause := none, faultIp := none } ∧ s.ip < s.program.length) ∨
    (s.status = { state := .halted, cause := none, faultIp := none } ∧ s.ip = s.program.length) ∨
    (∃ c i, s.status = { state := .faulted, cause := some c, faultIp := some i } ∧ c.isLoad = false ∧
      i < s.program.length) ∨
    (∃ c, s.status = { state := .faulted, cause := some c, faultIp := none } ∧ c.isLoad = true)

/-- 40_decode_dispatch.md R80: a run executes its indices in order and ends, Halted after the last one or Faulted at the
first that faults, after at most `N` steps. -/
def Obligations.EveryRunIsStraightLineAndEnds : Prop :=
  ∀ (s : State) (k : Nat), CoreInv s → s.status.state = .running → s.ip + k ≤ s.program.length →
    ∃ t, runSteps k s = .next t ∧
      ((t.status.state = .running ∧ t.ip = s.ip + k ∧ t.ip < s.program.length) ∨
       (t.status.state = .halted ∧ t.ip = s.program.length ∧ s.ip + k = s.program.length) ∨
       (t.status.state = .faulted ∧ ∃ j u, j < k ∧ runSteps j s = .next u ∧ u.status.state = .running ∧
          u.ip = s.ip + j ∧ t.status.faultIp = some (s.ip + j) ∧ step u = .next t))

/-- 41_stack_memory.md R87. -/
def Obligations.DepthFollowsFromTheOpcodesExecuted : Prop :=
  ∀ (k : Nat) (s t : State), started s → runSteps k s = .next t → t.status.state ≠ .faulted →
    t.stack.length + 2 * countOpcode 1#6 (s.program.take k) =
      countOpcode 42#6 (s.program.take k) + countOpcode 23#6 (s.program.take k) ∧
    (t.status.state = .running → (faultsWith .stackUnderflow t (step t) ↔
      (nextOpcode t = some 1#6 ∧ t.ip < t.program.length ∧ t.stack.length < 2) ∨
      (nextOpcode t = some 60#6 ∧ t.ip < t.program.length ∧ t.stack.length < 1)))

/-- 41_stack_memory.md R88 and 20_memory.md R40: along a run from a started core, until a fault, every cell holds the
value last stored to it, or 0. -/
def Obligations.EveryCellHoldsItsLastStore : Prop :=
  ∀ (k : Nat) (s t : State), started s → runSteps k s = .next t → t.status.state ≠ .faulted →
    ∀ a, memRead a t = lastStored a (storesOf k s)

/-! ### The step with its parameters as an argument -/

/-- 10_state.md R13: `STACK_CAP` and `PROG_MAX` are arguments of the step, and this core's `exec`, `step`, runs and host
operations are the parametric ones at its parameters. -/
def Obligations.ThisCoreIsTheParametricMachineAtItsParameters : Prop :=
  (∀ (i : Instr) (s : State), exec i s = execWith Config.params i s) ∧
  (∀ s : State, nextAction s = nextActionWith Config.params s ∧ step s = stepWith Config.params s) ∧
  (∀ (k : Nat) (s : State), runSteps k s = runStepsWith Config.params k s) ∧
  (∀ (op : HostOp) (s : State), hostOp op s = hostOpWith Config.params op s)

/-- Under any admissible parameters every step keeps the invariant, the depth bound of 10_state.md R18 for that
`STACK_CAP` among it. -/
def Obligations.ParametricStepKeepsTheInvariant : Prop :=
  ∀ (p : Params) (s : State), p.wellFormed = true → CoreInvWith p s →
    ∃ t, stepWith p s = .next t ∧ CoreInvWith p t

/-- A run that stays within a finite `STACK_CAP` and does not fault is the run of a core without a cap (the hypothesis
92_eei_decisions.md D4 asks a claim to carry). -/
def Obligations.RunsWithinTheCapAreRunsWithoutACap : Prop :=
  ∀ (p : Params) (n k : Nat) (s : State), p.wellFormed = true → p.stackCap = some n →
    (∀ j, j ≤ k → ∃ u, runStepsWith { p with stackCap := none } j s = .next u ∧
      u.status.state ≠ .faulted ∧ u.stack.length ≤ n) →
    runStepsWith p k s = runStepsWith { p with stackCap := none } k s

/-- 10_state.md R20 along a run: under `STACK_CAP` = `some n` the next step faults with StackOverflow exactly when it is a
push, with a legal address if it is READ_MEM, at depth n. -/
def Obligations.ParametricStepOverflowsExactlyAtTheCap : Prop :=
  ∀ (p : Params) (s : State), p.wellFormed = true → s.status.state = .running →
    (faultsWith .stackOverflow s (stepWith p s) ↔
      p.stackCap = some s.stack.length ∧ ∃ w, fetch s = some w ∧
        ((decodeRecord w).opcode = 42#6 ∨
          ((decodeRecord w).opcode = 23#6 ∧ (decodeRecord w).operand.toNat < Config.memSize)))

/-! ### The toolchain -/

/-- What the assembler emits (30_encoding.md R55, R68): words of assigned opcodes only, at most one a line. -/
def Obligations.AssemblerEmitsOnlyAssignedOpcodes : Prop :=
  ∀ (marker : Char) (lines : List (List Char)) (words : List Word), assemble marker lines = .ok words →
    words.length ≤ lines.length ∧ ∀ w ∈ words, (decodeRecord w).assigned = true

/-- 30_encoding.md R63: blank lines and comment lines contribute nothing. -/
def Obligations.SkippedLinesContributeNothing : Prop :=
  (∀ (marker : Char) (line : List Char) (rest : List (List Char)), (∀ c ∈ line, c.isWhitespace = true) →
    assemble marker (line :: rest) = assemble marker rest) ∧
  (∀ (marker : Char) (line name : List Char) (operands rest : List (List Char)),
    tokens line = name :: operands → name.head? = some marker →
    assemble marker (line :: rest) = assemble marker rest)
end

