-- ==== Sys2Proof/Laws/Decode.lean ====
section
/-! SUPPORT. The fields of a word and of its record, and that the rows of the opcode map exclude each other. -/

namespace Sys2Proof

theorem decodeRecord_opcode (w : Word) : (decodeRecord w).opcode = w.extractLsb' 0 6 := by
  ext i hi
  have h : (0x3F#32).getLsbD i = true := by
    have : i = 0 ∨ i = 1 ∨ i = 2 ∨ i = 3 ∨ i = 4 ∨ i = 5 := by omega
    rcases this with rfl | rfl | rfl | rfl | rfl | rfl <;> rfl
  simp only [decodeRecord, BitVec.getElem_setWidth, BitVec.getLsbD_and, h, Bool.and_true,
    BitVec.getElem_extractLsb', Nat.zero_add]

theorem decodeRecord_operand (w : Word) : (decodeRecord w).operand = w.extractLsb' 6 26 := by
  ext i hi
  simp [decodeRecord, Nat.add_comm]

/-- The low six bits of an encoded record are its opcode. -/
theorem encodeRecord_low (r : Record) : encodeRecord r &&& 0x3F#32 = r.opcode.setWidth 32 := by
  ext i hi
  have h : (0x3F#32).getLsbD i = decide (i < 6) := by
    interval_cases i <;> rfl
  simp only [encodeRecord, ← BitVec.getLsbD_eq_getElem, BitVec.getLsbD_and, BitVec.getLsbD_or, h,
    BitVec.getLsbD_shiftLeft, BitVec.getLsbD_setWidth]
  by_cases h6 : i < 6
  · simp [h6]
  · have : r.opcode.getLsbD i = false := BitVec.getLsbD_of_ge _ _ (by omega)
    simp [h6, this]

/-- No word matches two rows of the opcode map. -/
theorem opcodeTable_rows_exclusive :
    opcodeTable.Pairwise (fun x y => ∀ w : Word, w &&& x.mask = x.pattern → w &&& y.mask ≠ y.pattern) := by
  simp only [opcodeTable, List.pairwise_cons, List.mem_cons, List.not_mem_nil, or_false, forall_eq_or_imp,
    forall_eq, List.Pairwise.nil, and_true, false_implies, implies_true]
  refine ⟨⟨?_, ?_, ?_⟩, ⟨?_, ?_⟩, ?_⟩ <;> (intro w h h'; rw [h] at h'; exact absurd h' (by decide))

end Sys2Proof
end

