-- ==== Sys2Proof/Laws/State.lean ====
section
/-! SUPPORT. What each shared update of the state leaves in each field, true by definition. -/

namespace Sys2Proof.Machine

section
variable (p : Params) (c : Cause) (s : State) (a : Nat) (v : Word)

@[simp] theorem advance_program : (advance s).program = s.program := rfl
@[simp] theorem advance_ip : (advance s).ip = s.ip + 1 := rfl
@[simp] theorem advance_stack : (advance s).stack = s.stack := rfl
@[simp] theorem advance_memory : (advance s).memory = s.memory := rfl
@[simp] theorem advance_status : (advance s).status = s.status := rfl
@[simp] theorem advance_freeDrawn : (advance s).freeDrawn = s.freeDrawn := rfl

@[simp] theorem raise_program : (raise p c s).program = s.program := rfl
@[simp] theorem raise_ip : (raise p c s).ip = s.ip := rfl
@[simp] theorem raise_stack : (raise p c s).stack = freeStack p s.freeDrawn := rfl
@[simp] theorem raise_memory :
    (raise p c s).memory = Memory.ofCells (Config.faultedCell s.freeDrawn) := rfl
@[simp] theorem raise_status :
    (raise p c s).status = { state := .faulted, cause := some c, faultIp := some s.ip } := rfl
@[simp] theorem raise_freeDrawn : (raise p c s).freeDrawn = s.freeDrawn + 1 := rfl

@[simp] theorem raiseLoad_program : (raiseLoad c s).program = s.program := rfl
@[simp] theorem raiseLoad_ip : (raiseLoad c s).ip = s.ip := rfl
@[simp] theorem raiseLoad_stack : (raiseLoad c s).stack = s.stack := rfl
@[simp] theorem raiseLoad_memory : (raiseLoad c s).memory = s.memory := rfl
@[simp] theorem raiseLoad_status :
    (raiseLoad c s).status = { state := .faulted, cause := some c, faultIp := none } := rfl

@[simp] theorem halt_program : (halt s).program = s.program := rfl
@[simp] theorem halt_ip : (halt s).ip = s.ip := rfl
@[simp] theorem halt_stack : (halt s).stack = s.stack := rfl
@[simp] theorem halt_memory : (halt s).memory = s.memory := rfl
@[simp] theorem halt_status :
    (halt s).status = { state := .halted, cause := none, faultIp := none } := rfl
@[simp] theorem halt_freeDrawn : (halt s).freeDrawn = s.freeDrawn := rfl

@[simp] theorem memWrite_program : (memWrite a v s).program = s.program := rfl
@[simp] theorem memWrite_ip : (memWrite a v s).ip = s.ip := rfl
@[simp] theorem memWrite_stack : (memWrite a v s).stack = s.stack := rfl
@[simp] theorem memWrite_memory : (memWrite a v s).memory = Memory.write s.memory a v := rfl
@[simp] theorem memWrite_status : (memWrite a v s).status = s.status := rfl

@[simp] theorem pushIntoRoom_program : (pushIntoRoom v s).program = s.program := rfl
@[simp] theorem pushIntoRoom_ip : (pushIntoRoom v s).ip = s.ip := rfl
@[simp] theorem pushIntoRoom_stack : (pushIntoRoom v s).stack = v :: s.stack := rfl
@[simp] theorem pushIntoRoom_memory : (pushIntoRoom v s).memory = s.memory := rfl
@[simp] theorem pushIntoRoom_status : (pushIntoRoom v s).status = s.status := rfl

@[simp] theorem hostReset_program : (hostReset s).program = [] := rfl
@[simp] theorem hostReset_ip : (hostReset s).ip = 0 := rfl
@[simp] theorem hostReset_stack : (hostReset s).stack = [] := rfl
@[simp] theorem hostReset_memory : (hostReset s).memory = [] := rfl
@[simp] theorem hostReset_status :
    (hostReset s).status = { state := .idle, cause := none, faultIp := none } := rfl

end

/-! The halting move writes the status record alone. -/

@[simp] theorem settle_program (s : State) : (settle s).program = s.program := by
  unfold settle; split <;> rfl
@[simp] theorem settle_ip (s : State) : (settle s).ip = s.ip := by
  unfold settle; split <;> rfl
@[simp] theorem settle_stack (s : State) : (settle s).stack = s.stack := by
  unfold settle; split <;> rfl
@[simp] theorem settle_memory (s : State) : (settle s).memory = s.memory := by
  unfold settle; split <;> rfl
@[simp] theorem settle_freeDrawn (s : State) : (settle s).freeDrawn = s.freeDrawn := by
  unfold settle; split <;> rfl

/-- The halting move neither makes nor hides a fault. -/
theorem settle_faulted_iff (s : State) :
    (settle s).status.state = .faulted ↔ s.status.state = .faulted := by
  unfold settle; split <;> simp_all

end Sys2Proof.Machine
end

