-- ==== Sys2Proof/Laws/Memory.lean ====
section
/-! SUPPORT. The data memory: read after write, and that every operation keeps the canonical form. -/

namespace Sys2Proof.Machine

@[simp] theorem Memory.read_nil (a : Nat) : Memory.read [] a = 0#32 := rfl

theorem Memory.read_insert (m : Memory) (a b : Nat) (v : Word) :
    Memory.read (Memory.insert a v m) b = if b = a then v else Memory.read m b := by
  induction m with
  | nil => simp [Memory.insert, Memory.read]
  | cons c rest ih =>
    obtain ⟨k, w⟩ := c
    by_cases hlt : a < k
    · simp [Memory.insert, hlt, Memory.read]
    · by_cases heq : a = k
      · subst heq
        simp only [Memory.insert, Nat.lt_irrefl, ↓reduceIte, Memory.read]
        split <;> rfl
      · simp only [Memory.insert, hlt, heq, ↓reduceIte, Memory.read, ih]
        by_cases hk : b = k
        · subst hk; simp [Ne.symm heq]
        · simp [hk]

theorem Memory.read_erase (m : Memory) (a b : Nat) :
    Memory.read (Memory.erase a m) b = if b = a then 0#32 else Memory.read m b := by
  induction m with
  | nil => simp [Memory.erase]
  | cons c rest ih =>
    obtain ⟨k, w⟩ := c
    simp only [Memory.erase] at ih
    by_cases hk : k = a
    · subst hk
      simp only [Memory.erase, List.filter_cons, bne_self_eq_false, Bool.false_eq_true, ↓reduceIte, ih,
        Memory.read]
      split <;> rfl
    · simp only [Memory.erase, List.filter_cons, bne_iff_ne, ne_eq, hk, not_false_eq_true, ↓reduceIte,
        Memory.read, ih]
      by_cases hb : b = k
      · subst hb; simp [hk]
      · simp [hb]

/-- Read after write (20_memory.md R36): the written cell gives the value written, every other cell what it gave. -/
theorem Memory.read_write (m : Memory) (a b : Nat) (v : Word) :
    Memory.read (Memory.write m a v) b = if b = a then v else Memory.read m b := by
  unfold Memory.write
  split
  · next h => rw [Memory.read_erase, h]; rfl
  · exact Memory.read_insert m a b v

/-! ### The canonical form -/

/-- What the canonical form says, as propositions. -/
theorem Memory.wf_iff (m : Memory) :
    Memory.wf m = true ↔
      m.Pairwise (fun x y => x.1 < y.1) ∧ ∀ c ∈ m, c.1 < Config.memSize ∧ c.2 ≠ 0#32 := by
  simp [Memory.wf, Memory.unlisted]

@[simp] theorem Memory.wf_nil : Memory.wf [] = true := rfl

theorem Memory.mem_insert {m : Memory} {a : Nat} {v : Word} {c : Nat × Word}
    (h : c ∈ Memory.insert a v m) : c = (a, v) ∨ c ∈ m := by
  induction m with
  | nil => simpa [Memory.insert] using h
  | cons d rest ih =>
    obtain ⟨k, w⟩ := d
    unfold Memory.insert at h
    split at h
    · simpa using h
    · split at h
      · rcases List.mem_cons.mp h with h | h
        · exact .inl h
        · exact .inr (List.mem_cons_of_mem _ h)
      · rcases List.mem_cons.mp h with h | h
        · exact .inr (by simp [h])
        · exact (ih h).imp id (List.mem_cons_of_mem _)

theorem Memory.wf_insert {m : Memory} {a : Nat} {v : Word} (h : Memory.wf m = true)
    (ha : a < Config.memSize) (hv : v ≠ 0#32) : Memory.wf (Memory.insert a v m) = true := by
  rw [Memory.wf_iff] at h ⊢
  obtain ⟨hs, hb⟩ := h
  refine ⟨?_, fun c hc => ?_⟩
  · clear hb
    induction m with
    | nil => simp [Memory.insert]
    | cons d rest ih =>
      obtain ⟨k, w⟩ := d
      obtain ⟨hk, hr⟩ := List.pairwise_cons.mp hs
      unfold Memory.insert
      split
      · next hlt =>
        refine List.pairwise_cons.mpr ⟨fun c hc => ?_, hs⟩
        rcases List.mem_cons.mp hc with rfl | hc
        · exact hlt
        · exact Nat.lt_trans hlt (hk c hc)
      · split
        · next heq => subst heq; exact List.pairwise_cons.mpr ⟨hk, hr⟩
        · refine List.pairwise_cons.mpr ⟨fun c hc => ?_, ih hr⟩
          rcases Memory.mem_insert hc with rfl | hc
          · show k < a
            omega
          · exact hk c hc
  · rcases Memory.mem_insert hc with rfl | hc
    · exact ⟨ha, hv⟩
    · exact hb c hc

theorem Memory.wf_erase {m : Memory} (a : Nat) (h : Memory.wf m = true) :
    Memory.wf (Memory.erase a m) = true := by
  rw [Memory.wf_iff] at h ⊢
  exact ⟨h.1.filter _, fun c hc => h.2 c (List.mem_filter.mp hc).1⟩

/-- A write to a legal cell keeps the canonical form. -/
theorem Memory.wf_write {m : Memory} {a : Nat} (v : Word) (h : Memory.wf m = true)
    (ha : a < Config.memSize) : Memory.wf (Memory.write m a v) = true := by
  unfold Memory.write
  split
  · exact Memory.wf_erase a h
  · next hv => exact Memory.wf_insert h ha hv

/-- A memory made from a value for every cell is in canonical form. -/
theorem Memory.wf_ofCells (f : Nat → Word) : Memory.wf (Memory.ofCells f) = true := by
  rw [Memory.wf_iff]
  constructor
  · unfold Memory.ofCells
    rw [List.pairwise_filterMap]
    refine List.pairwise_lt_range.imp fun {x y} hxy c hc d hd => ?_
    split at hc <;> split at hd <;> simp_all
    rw [← hc, ← hd]
    exact hxy
  · intro c hc
    unfold Memory.ofCells at hc
    simp only [List.mem_filterMap, List.mem_range] at hc
    obtain ⟨a, ha, hc⟩ := hc
    split at hc
    · simp at hc
    · next hv =>
      cases hc
      exact ⟨ha, hv⟩

end Sys2Proof.Machine
end

