-- ==== Sys2Proof/Laws/Ops.lean ====
section
/-! SUPPORT. One lemma per shared operation that says everything it can do, and one per meaning. -/

namespace Sys2Proof.Machine

/-- This core's parameters are in the range 00_scope.md R6 gives them: a finite `STACK_CAP` is at least 2. -/
theorem Config.two_le_of_stackCap {n : Nat} (h : Config.params.stackCap = some n) : 2 ≤ n := by
  simp only [Config.params, Option.map_eq_some_iff] at h
  obtain ⟨k, -, rfl⟩ := h
  omega

theorem Params.two_le_of_wellFormed {p : Params} (hp : p.wellFormed = true) {n : Nat}
    (h : p.stackCap = some n) : 2 ≤ n := by
  simpa [Params.wellFormed, h] using hp

/-- A full stack is one whose depth is the cap (10_state.md R20). -/
theorem stackFull_eq_true_iff {p : Params} (hp : ∀ n, p.stackCap = some n → 2 ≤ n) (stack : List Word) :
    stackFull p stack = true ↔ p.stackCap = some stack.length := by
  match stack with
  | [] =>
    simp only [stackFull, Bool.false_eq_true, false_iff]
    exact fun h => absurd (hp _ h) (by simp)
  | [v] =>
    simp only [stackFull, Bool.false_eq_true, false_iff]
    exact fun h => absurd (hp _ h) (by simp)
  | v :: w :: rest => simp [stackFull]

/-- A stack of fewer than two entries is full under no parameters. -/
theorem stackFull_of_length_lt_two (p : Params) {stack : List Word} (h : stack.length < 2) :
    stackFull p stack = false := by
  match stack with
  | [] => rfl
  | [_] => rfl
  | _ :: _ :: _ => simp only [List.length_cons] at h; omega

theorem push_eq (p : Params) (v : Word) (s : State) :
    push p v s = if stackFull p s.stack = true then .error .stackOverflow
      else .ok { s with stack := v :: s.stack } := rfl

@[simp] theorem complete_ok (p : Params) (s t : State) : complete p s (.ok t) = .next (advance t) := rfl

@[simp] theorem complete_error (p : Params) (s : State) (c : Cause) :
    complete p s (.error c) = .next (raise p c s) := rfl

/-- Whatever an instruction does, it ends in a next state. -/
theorem complete_next (p : Params) (s : State) (r : Except Cause State) :
    ∃ t, complete p s r = .next t := by
  cases r <;> exact ⟨_, rfl⟩

/-! ### The meanings, case by case -/

/-- Everything LOAD_CONST can do (41_stack_memory.md R84). -/
theorem loadConstWith_eq (p : Params) (b : Operand) (s : State) :
    loadConstWith p b s =
      if stackFull p s.stack = true then .next (raise p .stackOverflow s)
      else .next { s with stack := immValue b :: s.stack, ip := s.ip + 1 } := by
  simp only [loadConstWith, push_eq]
  split <;> rfl

/-- Everything READ_MEM can do (41_stack_memory.md R85). -/
theorem readMemWith_eq (p : Params) (b : Operand) (s : State) :
    readMemWith p b s =
      if immAddress b < Config.memSize then
        if stackFull p s.stack = true then .next (raise p .stackOverflow s)
        else .next { s with stack := memRead (immAddress b) s :: s.stack, ip := s.ip + 1 }
      else .next (raise p .addressOutOfRange s) := by
  unfold readMemWith checkAddress
  split
  · simp only [push_eq, bind, Except.bind]
    split <;> rfl
  · rfl

/-- Everything WRITE_MEM can do (41_stack_memory.md R86). -/
theorem writeMemWith_eq (p : Params) (b : Operand) (s : State) :
    writeMemWith p b s =
      match s.stack with
      | a :: v :: rest =>
        if stackAddress a < Config.memSize then
          .next { s with
            stack := rest, memory := Memory.write s.memory (stackAddress a) v, ip := s.ip + 1 }
        else .next (raise p .addressOutOfRange s)
      | _ => .next (raise p .stackUnderflow s) := by
  unfold writeMemWith requireDepth
  match hs : s.stack with
  | [] => simp [bind, Except.bind]
  | [a] => simp [bind, Except.bind]
  | a :: v :: rest =>
    have h : ¬ (a :: v :: rest).length < 2 := by simp
    simp only [h, ↓reduceIte, bind, Except.bind, pop, hs, checkAddress]
    by_cases ha : stackAddress a < Config.memSize
    · rw [if_pos ha, if_pos ha]; rfl
    · rw [if_neg ha, if_neg ha]; rfl

/-- Everything BITREVERSE can do (42_alu_bitreverse.md R103). -/
theorem bitreverseWith_eq (p : Params) (b : Operand) (s : State) :
    bitreverseWith p b s =
      match s.stack with
      | v :: rest => .next { s with stack := bitrev32 v :: rest, ip := s.ip + 1 }
      | [] => .next (raise p .stackUnderflow s) := by
  unfold bitreverseWith requireDepth
  match hs : s.stack with
  | [] => simp [bind, Except.bind]
  | v :: rest => simp [bind, Except.bind, pop, hs, pushIntoRoom, advance]

/-- Bit `j` of the first `n` terms of the reversal is bit `31 - j` of `v`, for the top `n` bits (42_alu_bitreverse.md
R102). -/
theorem bitrevTerms_getLsbD (v : Word) (n j : Nat) (hn : n ≤ 32) :
    (bitrevTerms v n).getLsbD j = (decide (32 - n ≤ j) && decide (j < 32) && v.getLsbD (31 - j)) := by
  induction n with
  | zero =>
    simp only [bitrevTerms, BitVec.getLsbD_zero]
    by_cases h : j < 32 <;> simp [h]
  | succ n ih =>
    have hone : ∀ k, (1#32).getLsbD k = decide (k = 0) := by simp [BitVec.getLsbD_one]
    simp only [bitrevTerms, BitVec.getLsbD_or, ih (by omega), BitVec.getLsbD_shiftLeft, BitVec.getLsbD_and,
      BitVec.getLsbD_ushiftRight, hone]
    by_cases hj : j < 32
    · rcases Nat.lt_trichotomy j (31 - n) with h | h | h
      · have h1 : ¬ 32 - n ≤ j := by omega
        have h2 : ¬ 32 - (n + 1) ≤ j := by omega
        simp only [hj, h, h1, h2, decide_true, decide_false, Bool.not_true, Bool.and_false, Bool.false_and,
          Bool.or_false]
      · have h1 : ¬ 32 - n ≤ j := by omega
        have h2 : 32 - (n + 1) ≤ j := by omega
        have e : 31 - j = n := by omega
        have e' : j - (31 - n) = 0 := by omega
        have h3 : ¬ j < 31 - n := by omega
        simp only [hj, h1, h2, h3, e, e', decide_true, decide_false, Bool.not_false, Bool.true_and,
          Bool.false_and, Bool.false_or, Bool.and_true, Nat.add_zero]
      · have h1 : 32 - n ≤ j := by omega
        have h2 : 32 - (n + 1) ≤ j := by omega
        have e' : ¬ j - (31 - n) = 0 := by omega
        simp only [hj, h1, h2, e', decide_true, decide_false, Bool.true_and, Bool.and_false, Bool.or_false]
    · simp [hj]

end Sys2Proof.Machine
end

