-- ==== Sys2Proof/Laws/PerInstr.lean ====
section
/-! SUPPORT. Statements made for each instruction as it is written: its word lies in its own row of the opcode map and in
no other (30_encoding.md R55). -/

namespace Sys2Proof.Laws.OpcodeRow

/-- The instruction's word matches exactly the rows that bear its mnemonic. -/
def Statement (i : Instr) : Prop :=
  ∀ row ∈ opcodeTable, (encode i &&& row.mask = row.pattern ↔ row.mnemonic = i.mnemonic)

/-- The low bits of an instruction's word, for whichever opcode it has. -/
theorem of_low {i : Instr} {v : Word} (h : encode i &&& 0x3F#32 = v)
    (hv : ∀ row ∈ opcodeTable, row.mask = 0x3F#32 ∧ (v = row.pattern ↔ row.mnemonic = i.mnemonic)) :
    Statement i := by
  intro row hr
  rw [(hv row hr).1, h]
  exact (hv row hr).2

theorem loadConst (b : Operand) : Statement (.loadConst b) :=
  of_low (encodeRecord_low _) (by simp only [Instr.record, Instr.mnemonic]; decide)

theorem readMem (b : Operand) : Statement (.readMem b) :=
  of_low (encodeRecord_low _) (by simp only [Instr.record, Instr.mnemonic]; decide)

theorem writeMem (b : Operand) : Statement (.writeMem b) :=
  of_low (encodeRecord_low _) (by simp only [Instr.record, Instr.mnemonic]; decide)

theorem bitreverse (b : Operand) : Statement (.bitreverse b) :=
  of_low (encodeRecord_low _) (by simp only [Instr.record, Instr.mnemonic]; decide)

end Sys2Proof.Laws.OpcodeRow
end

