-- ==== Sys2Proof/Laws/Step.lean ====
section
/-! SUPPORT. Everything one step can do, under any parameters, and the same of this core's step. -/

namespace Sys2Proof.Machine

/-! ### This core is the parametric machine at its parameters -/

theorem exec_eq (i : Instr) (s : State) : exec i s = execWith Config.params i s := by
  cases i <;> rfl

theorem step_eq (s : State) : step s = stepWith Config.params s := by
  simp only [step, stepWith, exec_eq, nextAction]

/-! ### Under any parameters -/

/-- Every instruction ends in a next state: completed, or in the entry into one of the hardware's faults. -/
theorem execWith_cases (p : Params) (i : Instr) (s : State) :
    (∃ t, execWith p i s = .next t ∧ t.program = s.program ∧ t.ip = s.ip + 1 ∧ t.status = s.status ∧
      t.freeDrawn = s.freeDrawn) ∨
    (∃ c, c.isLoad = false ∧ execWith p i s = .next (raise p c s)) := by
  cases i with
  | loadConst b =>
    simp only [execWith, loadConstWith_eq]
    split
    · exact .inr ⟨_, rfl, rfl⟩
    · exact .inl ⟨_, rfl, rfl, rfl, rfl, rfl⟩
  | readMem b =>
    simp only [execWith, readMemWith_eq]
    split
    · split
      · exact .inr ⟨_, rfl, rfl⟩
      · exact .inl ⟨_, rfl, rfl, rfl, rfl, rfl⟩
    · exact .inr ⟨_, rfl, rfl⟩
  | writeMem b =>
    simp only [execWith, writeMemWith_eq]
    split
    · split
      · exact .inl ⟨_, rfl, rfl, rfl, rfl, rfl⟩
      · exact .inr ⟨_, rfl, rfl⟩
    · exact .inr ⟨_, rfl, rfl⟩
  | bitreverse b =>
    simp only [execWith, bitreverseWith_eq]
    split
    · exact .inl ⟨_, rfl, rfl, rfl, rfl, rfl⟩
    · exact .inr ⟨_, rfl, rfl⟩

/-- What the next step comes to, from a state in which the core runs. -/
theorem nextActionWith_running (p : Params) {s : State} (h : s.status.state = .running) :
    nextActionWith p s =
      if s.ip = s.program.length then .finish (.next (halt s))
      else
        match fetch s with
        | none => .finish (.fault .fetchPastEnd)
        | some w =>
          match decode w with
          | .ok i => .execute i
          | .error _ => .finish (.next (raise p .unknownOpcode s)) := by
  unfold nextActionWith
  rw [h] <;> rfl

/-- Outside Running the next step leaves the state as it is. -/
theorem nextActionWith_of_not_running (p : Params) {s : State} (h : s.status.state ≠ .running) :
    nextActionWith p s = .finish (.next s) := by
  unfold nextActionWith
  cases hs : s.status.state <;> simp_all

theorem stepWith_of_action {p : Params} {s : State} {a : Action} (h : nextActionWith p s = a) :
    stepWith p s = carryOut (fun i => execWith p i s) a := by
  rw [stepWith, h]

theorem stepWith_of_not_running (p : Params) {s : State} (h : s.status.state ≠ .running) :
    stepWith p s = .next s :=
  stepWith_of_action (nextActionWith_of_not_running p h)

/-- Everything a step can do, its guards included. -/
theorem stepWith_cases (p : Params) (s : State) :
    (s.status.state ≠ .running ∧ stepWith p s = .next s) ∨
    (s.status.state = .running ∧ s.ip = s.program.length ∧ stepWith p s = .next (halt s)) ∨
    (s.status.state = .running ∧ s.program.length < s.ip ∧ stepWith p s = .fault .fetchPastEnd) ∨
    (∃ w e, s.status.state = .running ∧ s.ip < s.program.length ∧ fetch s = some w ∧ decode w = .error e ∧
      stepWith p s = .next (raise p .unknownOpcode s)) ∨
    (∃ w i, s.status.state = .running ∧ s.ip < s.program.length ∧ fetch s = some w ∧ decode w = .ok i ∧
      nextActionWith p s = .execute i ∧ stepWith p s = settleOutcome (execWith p i s)) := by
  by_cases hr : s.status.state = .running
  · have ha := nextActionWith_running p hr
    by_cases hip : s.ip = s.program.length
    · rw [if_pos hip] at ha
      exact .inr (.inl ⟨hr, hip, stepWith_of_action ha⟩)
    · rw [if_neg hip] at ha
      match hf : fetch s with
      | none =>
        have hge := List.getElem?_eq_none_iff.mp hf
        rw [hf] at ha
        exact .inr (.inr (.inl ⟨hr, by omega, stepWith_of_action ha⟩))
      | some w =>
        have hlt := (List.getElem?_eq_some_iff.mp hf).1
        rw [hf] at ha
        match hd : decode w with
        | .error e =>
          simp only [hd] at ha
          exact .inr (.inr (.inr (.inl ⟨w, e, hr, hlt, rfl, hd, stepWith_of_action ha⟩)))
        | .ok i =>
          simp only [hd] at ha
          exact .inr (.inr (.inr (.inr ⟨w, i, hr, hlt, rfl, hd, ha, stepWith_of_action ha⟩)))
  · exact .inl ⟨hr, stepWith_of_not_running p hr⟩

/-- A step that executes `i` completes it and takes the halting move, or enters the fault it raises. -/
theorem stepWith_execute_cases {p : Params} {s : State} {i : Instr}
    (h : stepWith p s = settleOutcome (execWith p i s)) :
    (∃ t, execWith p i s = .next t ∧ stepWith p s = .next (settle t) ∧ t.program = s.program ∧
      t.ip = s.ip + 1 ∧ t.status = s.status ∧ t.freeDrawn = s.freeDrawn) ∨
    (∃ c, c.isLoad = false ∧ execWith p i s = .next (raise p c s) ∧ stepWith p s = .next (raise p c s)) := by
  rcases execWith_cases p i s with ⟨t, he, hrest⟩ | ⟨c, hc, he⟩
  · exact .inl ⟨t, he, by rw [h, he]; rfl, hrest⟩
  · exact .inr ⟨c, hc, he, by rw [h, he]; rfl⟩

/-! ### On this core -/

theorem exec_cases (i : Instr) (s : State) :
    (∃ t, exec i s = .next t ∧ t.program = s.program ∧ t.ip = s.ip + 1 ∧ t.status = s.status ∧
      t.freeDrawn = s.freeDrawn) ∨
    (∃ c, c.isLoad = false ∧ exec i s = .next (raise Config.params c s)) := by
  simpa only [exec_eq] using execWith_cases Config.params i s

theorem nextAction_running {s : State} (h : s.status.state = .running) :
    nextAction s =
      if s.ip = s.program.length then .finish (.next (halt s))
      else
        match fetch s with
        | none => .finish (.fault .fetchPastEnd)
        | some w =>
          match decode w with
          | .ok i => .execute i
          | .error _ => .finish (.next (raise Config.params .unknownOpcode s)) :=
  nextActionWith_running Config.params h

theorem nextAction_of_not_running {s : State} (h : s.status.state ≠ .running) :
    nextAction s = .finish (.next s) :=
  nextActionWith_of_not_running Config.params h

theorem step_of_not_running {s : State} (h : s.status.state ≠ .running) : step s = .next s := by
  rw [step_eq, stepWith_of_not_running _ h]

theorem step_cases (s : State) :
    (s.status.state ≠ .running ∧ step s = .next s) ∨
    (s.status.state = .running ∧ s.ip = s.program.length ∧ step s = .next (halt s)) ∨
    (s.status.state = .running ∧ s.program.length < s.ip ∧ step s = .fault .fetchPastEnd) ∨
    (∃ w e, s.status.state = .running ∧ s.ip < s.program.length ∧ fetch s = some w ∧ decode w = .error e ∧
      step s = .next (raise Config.params .unknownOpcode s)) ∨
    (∃ w i, s.status.state = .running ∧ s.ip < s.program.length ∧ fetch s = some w ∧ decode w = .ok i ∧
      nextAction s = .execute i ∧ step s = settleOutcome (exec i s)) := by
  simpa only [step_eq, exec_eq, nextAction] using stepWith_cases Config.params s

theorem step_execute_cases {s : State} {i : Instr} (h : step s = settleOutcome (exec i s)) :
    (∃ t, exec i s = .next t ∧ step s = .next (settle t) ∧ t.program = s.program ∧ t.ip = s.ip + 1 ∧
      t.status = s.status ∧ t.freeDrawn = s.freeDrawn) ∨
    (∃ c, c.isLoad = false ∧ exec i s = .next (raise Config.params c s) ∧
      step s = .next (raise Config.params c s)) := by
  rw [step_eq, exec_eq] at *
  exact stepWith_execute_cases h

end Sys2Proof.Machine
end

