-- ==== Sys2Proof/Laws/Run.lean ====
section
/-! SUPPORT. Runs of the core, one step at a time. -/

namespace Sys2Proof.Machine

@[simp] theorem runSteps_zero (s : State) : runSteps 0 s = .next s := rfl

theorem runSteps_succ (k : Nat) (s : State) :
    runSteps (k + 1) s =
      match step s with
      | .next t => runSteps k t
      | .fault r => .fault r
      | .refused r => .refused r := by
  simp only [runSteps, Host.Core.run]
  have h : Sys2Proof.core.step s = step s := rfl
  rw [h]
  cases step s <;> rfl

theorem runSteps_succ_of_next {s t : State} (k : Nat) (h : step s = .next t) :
    runSteps (k + 1) s = runSteps k t := by
  rw [runSteps_succ, h]

/-- A run of `j + k` steps is a run of `j` and then one of `k`. -/
theorem runSteps_add {s t : State} (j k : Nat) (h : runSteps j s = .next t) :
    runSteps (j + k) s = runSteps k t := by
  induction j generalizing s with
  | zero => cases h; rw [Nat.zero_add]
  | succ j ih =>
    rw [Nat.add_right_comm, runSteps_succ]
    rw [runSteps_succ] at h
    split at h
    · next u hu => exact ih h
    · cases h
    · cases h

/-- Outside Running the core stays as it is for any number of steps. -/
theorem runSteps_of_not_running {s : State} (k : Nat) (h : s.status.state ≠ .running) :
    runSteps k s = .next s := by
  induction k with
  | zero => rfl
  | succ k ih =>
    rw [runSteps_succ_of_next k (t := s) (step_of_not_running h), ih]

/-! ### Under any parameters -/

@[simp] theorem runStepsWith_zero (p : Params) (s : State) : runStepsWith p 0 s = .next s := rfl

theorem runStepsWith_succ (p : Params) (k : Nat) (s : State) :
    runStepsWith p (k + 1) s =
      match stepWith p s with
      | .next t => runStepsWith p k t
      | .fault r => .fault r
      | .refused r => .refused r := rfl

theorem runStepsWith_succ_of_next {p : Params} {s t : State} (k : Nat) (h : stepWith p s = .next t) :
    runStepsWith p (k + 1) s = runStepsWith p k t := by
  rw [runStepsWith_succ, h]

end Sys2Proof.Machine
end

