-- ==== Sys2Proof/Machine/Flags.lean ====
section
/-! DEFINITION. There is nothing to compute here: the core has no flags, condition codes or predicates, and no
instruction sets or reads a status bit as a side effect (10_state.md R14). The status record of R23 is written by
reset, load, the run step and fault entry only; those are in Ops.lean, Fetch.lean and HostPort.lean. -/
end

