-- ==== Sys2Proof/Tests/Slice0.lean ====
section
/-! SUPPORT. Small tests, each result taken from spec/ (95_test_vectors.md or the rule named), and for each statement
with hypotheses a state and operands that meet them together. -/

namespace Sys2Proof.Tests

open Sys2Proof Sys2Proof.Machine

/-- A core Running a program from its first word. -/
def running (program : List Word) (stack : List Word) (memory : Memory) : State :=
  { program := program, ip := 0, stack := stack, memory := memory
    status := { state := .running, cause := none, faultIp := none }, freeDrawn := 0 }

/-- A core that has halted after a program of no words. -/
def haltedCore (stack : List Word) (memory : Memory) : State :=
  { State.reset with
    stack := stack, memory := memory, status := { state := .halted, cause := none, faultIp := none } }

/-- `STACK_CAP` = some 2. -/
def capTwo : Params := { stackCap := some 2, progMax := none }

/-- What a test looks at in the outcome of a step. -/
def outcomeStatus : Host.Outcome State Fault Refusal → Option Status
  | .next s => some s.status
  | _ => none

/-- The stack after a step, top first. -/
def outcomeStack : Host.Outcome State Fault Refusal → Option (List Word)
  | .next s => some s.stack
  | _ => none

/-- One cell after a step. -/
def outcomeCell (a : Nat) : Host.Outcome State Fault Refusal → Option Word
  | .next s => some (memRead a s)
  | _ => none

/-! ### The checks of WellFormed.lean refuse an ill-formed term -/

theorem test_assigned_refuses_opcode_2 : Record.assigned { opcode := 2#6, operand := 0#26 } = false := by decide
theorem test_assigned_accepts_opcode_60 : Record.assigned { opcode := 60#6, operand := 9#26 } = true := by decide
theorem test_rawRecord_refuses_opcode_64 : rawRecordWellFormed 64 0 = false := by decide
theorem test_rawRecord_refuses_operand_two_pow_26 : rawRecordWellFormed 0 67108864 = false := by decide
theorem test_params_refuse_cap_1 : Params.wellFormed { stackCap := some 1, progMax := none } = false := by decide
theorem test_memSize_refuses_0 : memSizeWellFormed 0 = false := by decide
theorem test_memSize_refuses_above_two_pow_26 : memSizeWellFormed 67108865 = false := by decide
theorem test_binary_refuses_5_bytes : binaryWellFormed [0x2A#8, 0, 0, 0, 1#8] = false := by decide

/-! ### Decoding: words written out from 30_encoding.md R55 (95_test_vectors.md L2-A) -/

theorem test_decode_loadConst_5 : decode 0b00000000000000000000000101_101010#32 = .ok (.loadConst 5#26) := by decide
theorem test_decode_readMem_1023 : decode 0b00000000000000001111111111_010111#32 = .ok (.readMem 1023#26) := by decide
theorem test_decode_writeMem : decode 0b00000000000000000000000000_000001#32 = .ok (.writeMem 0#26) := by decide
theorem test_decode_writeMem_ignored :
    decode 0b11111111111111111111111111_000001#32 = .ok (.writeMem 0x3FFFFFF#26) := by decide
theorem test_decode_bitreverse : decode 0b00000000000000000000000000_111100#32 = .ok (.bitreverse 0#26) := by decide
theorem test_decode_opcode_0 : decode 0x00000040#32 = .error (.unknownOpcode 0#6) := by decide
theorem test_decodeBytes_loadConst_5 :
    decodeBytes [0x6A#8, 0x01#8, 0x00#8, 0x00#8, 0x3C#8] = .ok (.loadConst 5#26, [0x3C#8]) := by decide
theorem test_decodeBytes_truncated : decodeBytes [0x6A#8, 0x01#8, 0x00#8] = .error .truncated := by decide
theorem test_decodeTableWord_readMem : decodeTableWord 32 0x00010017 = some (.readMem 1024#26) := by decide
theorem test_encode_wraps : encodeOperand 42#6 (some 67108869) = 0x0000016A#32 := by decide
theorem test_encode_negative : encodeOperand 42#6 (some (-1)) = 0xFFFFFFEA#32 := by decide

/-! ### One step (95_test_vectors.md L2-C to L2-F) -/

theorem test_loadConst_greatest :
    outcomeStack (step (running [0xFFFFFFEA#32] [9#32] [])) = some [0x03FFFFFF#32, 9#32] := by decide
theorem test_loadConst_overflows_at_cap_2 :
    outcomeStatus (loadConstWith capTwo 3#26 (running [] [2#32, 1#32] [])) =
      some { state := .faulted, cause := some .stackOverflow, faultIp := some 0 } := by decide
theorem test_step_overflows_at_cap_2 :
    outcomeStatus (stepWith capTwo (running [0x000000EA#32] [2#32, 1#32] [])) =
      some { state := .faulted, cause := some .stackOverflow, faultIp := some 0 } := by decide
theorem test_readMem_pushes_the_cell :
    outcomeStack (step (running [0x000000D7#32] [] [(3, 7#32)])) = some [7#32] := by decide
theorem test_readMem_1024_is_out_of_range_before_overflow :
    outcomeStatus (readMemWith capTwo 1024#26 (running [] [2#32, 1#32] [])) =
      some { state := .faulted, cause := some .addressOutOfRange, faultIp := some 0 } := by decide
theorem test_writeMem_stores_below_top :
    outcomeCell 3 (step (running [0x00000001#32] [3#32, 2#32, 1#32] [])) = some 2#32 := by decide
theorem test_writeMem_underflows_at_depth_1 :
    outcomeStatus (step (running [0x00000001#32] [9#32] [])) =
      some { state := .faulted, cause := some .stackUnderflow, faultIp := some 0 } := by decide
theorem test_bitreverse_changes_the_top_only :
    outcomeStack (step (running [0xFFFFFFFC#32] [0x12345678#32, 4#32] [])) = some [0x1E6A2C48#32, 4#32] := by decide
theorem test_bitreverse_underflows_when_empty :
    outcomeStatus (step (running [0x0000003C#32] [] [])) =
      some { state := .faulted, cause := some .stackUnderflow, faultIp := some 0 } := by decide
theorem test_unknown_opcode_63 :
    outcomeStatus (step (running [0xFFFFFFFF#32] [] [])) =
      some { state := .faulted, cause := some .unknownOpcode, faultIp := some 0 } := by decide
theorem test_last_instruction_halts :
    outcomeStatus (step (running [0x0000016A#32] [] [])) =
      some { state := .halted, cause := none, faultIp := none } := by decide
theorem test_withFetchWord_runs_the_word :
    outcomeStack (step (State.reset.withFetchWord 32 0x0000016A)) = some [5#32] := by decide

/-! ### The host and the toolchain (95_test_vectors.md L2-B, L2-G, L2-H, L1-8) -/

theorem test_load_five_bytes :
    (hostOp (.load [0x2A#8, 0, 0, 0, 1#8]) State.reset).2.status =
      { state := .faulted, cause := some .malformedBinaryLength, faultIp := none } := by decide
theorem test_load_seven_bytes_at_progMax_1 :
    (hostOpWith { stackCap := none, progMax := some 1 } (.load [1#8, 2#8, 3#8, 4#8, 5#8, 6#8, 7#8]) State.reset).2.status =
      { state := .faulted, cause := some .malformedBinaryLength, faultIp := none } := by decide
theorem test_dump_2_4 :
    (hostOp (.dump 2 4) (haltedCore [] [(3, 7#32)])).1 = .cells [(2, 0#32), (3, 7#32), (4, 0#32)] := by decide
theorem test_dump_end_1024 : (hostOp (.dump 0 1024) (haltedCore [] [])).1 = .rangeOutOfBounds := by decide
theorem test_readStack_bottom_first :
    (hostOp .readStack (haltedCore [3#32, 7#32] [])).1 = .stack [7#32, 3#32] := by decide
theorem test_assemble_skips_comment_and_blank :
    assemble '#' [['#', ' ', 'n'], [], [' ', ' '],
      ['l', 'o', 'a', 'd', '_', 'c', 'o', 'n', 's', 't', ' ', '5']] = .ok [0x0000016A#32] := by decide
theorem test_assemble_missing_operand :
    assemble '#' [['R', 'E', 'A', 'D', '_', 'M', 'E', 'M']] = .error .missingOperand := by decide
theorem test_assemble_invalid_operand :
    assembleTokens ['L', 'O', 'A', 'D', '_', 'C', 'O', 'N', 'S', 'T'] [['0', 'x', '1', '0']] =
      .error .invalidOperand := by decide

/-! ### States that meet the hypotheses of each statement -/

theorem witness_DecodeInvertsEncode : decode 0xFFFFFFFC#32 = .ok (.bitreverse 0x3FFFFFF#26) := by decide

theorem witness_FileIsCut :
    [0x6A#8, 1#8, 0#8, 0#8].length % 4 = 0 ∧ 0 < [0x6A#8, 1#8, 0#8, 0#8].length / 4 ∧
      programTooLong { stackCap := none, progMax := some 1 } ([0x6A#8, 1#8, 0#8, 0#8].length / 4) = false ∧
      State.reset.status.state = .idle := by decide

theorem witness_OpcodeMap :
    0xFFFFFFC1#32 &&& 0x3F#32 = 1#32 ∧ 0xFFFFFFD7#32 &&& 0x3F#32 = 23#32 ∧ 0xFFFFFFEA#32 &&& 0x3F#32 = 42#32 ∧
      0xFFFFFFFC#32 &&& 0x3F#32 = 60#32 ∧
      0xFFFFFFFF#32 &&& 0x3F#32 ≠ 1#32 ∧ 0xFFFFFFFF#32 &&& 0x3F#32 ≠ 23#32 ∧ 0xFFFFFFFF#32 &&& 0x3F#32 ≠ 42#32 ∧
      0xFFFFFFFF#32 &&& 0x3F#32 ≠ 60#32 := by decide

theorem witness_IgnoredOperandBits :
    fetch (running [1#32] [1023#32, 42#32] []) = some 1#32 ∧ 1#32 &&& 0x3F#32 = 1#32 ∧
      0xFFFFFFC1#32 &&& 0x3F#32 = 1#32 &&& 0x3F#32 ∧
      (∃ t, step (running [1#32] [1023#32, 42#32] []) = .next t) ∧
      assembleTokens ['W', 'R', 'I', 'T', 'E', '_', 'M', 'E', 'M'] [['9', '9']] = .ok 1#32 :=
  ⟨rfl, by decide, by decide, ⟨_, rfl⟩, by decide⟩

/-- With no cap, at the largest depth below a cap of 2, and at a cap of 2. -/
theorem witness_LoadConst :
    stackFull Config.params (running [] [1#32] []).stack = false ∧ capTwo.wellFormed = true ∧
      capTwo.stackCap = some (running [] [2#32, 1#32] []).stack.length ∧
      capTwo.stackCap ≠ some (running [] [1#32] []).stack.length := ⟨rfl, by decide, by decide, by decide⟩

theorem witness_ReadMem :
    (1023#26).toNat < Config.memSize ∧ stackFull Config.params (running [] [] []).stack = false ∧
      Config.memSize ≤ (1024#26).toNat ∧ capTwo.wellFormed = true ∧
      capTwo.stackCap = some (running [] [2#32, 1#32] []).stack.length ∧
      capTwo.stackCap ≠ some (running [] [3#32, 2#32, 1#32] []).stack.length :=
  ⟨by decide, rfl, by decide, by decide, by decide, by decide⟩

theorem witness_WriteMem :
    (running [] [1023#32, 9#32] []).stack = 1023#32 :: 9#32 :: [] ∧ (1023#32).toNat < Config.memSize ∧
      (running [] [9#32] []).stack.length < 2 ∧
      (running [] [1024#32, 9#32] []).stack = 1024#32 :: 9#32 :: [] ∧ Config.memSize ≤ (1024#32).toNat := by decide

theorem witness_Bitreverse :
    (running [] [1#32] []).stack = 1#32 :: [] ∧ (running [] [] []).stack = [] ∧
      (running [] [1#32] []).stack ≠ [] ∧ 31 < 32 := by decide

/-- Each of the four instructions completes from a Running state and leaves it Running. -/
theorem witness_Frame :
    ∀ i ∈ [Instr.loadConst 5#26, .readMem 1023#26, .writeMem 0#26, .bitreverse 0#26],
      (running [] [3#32, 7#32] []).status.state = .running ∧
      ∃ t, execWith { stackCap := none, progMax := none } i (running [] [3#32, 7#32] []) = .next t ∧
        t.status.state = .running := by
  intro i hi
  simp only [List.mem_cons, List.not_mem_nil, or_false] at hi
  rcases hi with rfl | rfl | rfl | rfl <;> exact ⟨rfl, _, rfl, rfl⟩

/-- The same for `exec` on this core, whatever its parameters: WRITE_MEM and BITREVERSE from two entries, the pushing
instructions from one. -/
theorem witness_Frame_exec :
    (∃ t, exec (.loadConst 5#26) (running [] [7#32] []) = .next t ∧ t.status.state = .running) ∧
      (∃ t, exec (.readMem 1023#26) (running [] [7#32] []) = .next t ∧ t.status.state = .running) ∧
      (∃ t, exec (.writeMem 0#26) (running [] [3#32, 7#32] []) = .next t ∧ t.status.state = .running) ∧
      (∃ t, exec (.bitreverse 0#26) (running [] [3#32, 7#32] []) = .next t ∧ t.status.state = .running) :=
  ⟨⟨_, rfl, rfl⟩, ⟨_, rfl, rfl⟩, ⟨_, rfl, rfl⟩, ⟨_, rfl, rfl⟩⟩

theorem witness_Push :
    capTwo.wellFormed = true ∧ capTwo.stackCap = some (running [] [2#32, 1#32] []).stack.length ∧
      capTwo.stackCap ≠ some (running [] [] []).stack.length := by decide

theorem witness_MemWrite : 1023 < Config.memSize := by decide

theorem witness_Canonical : Memory.wf [(0, 1#32), (1023, 7#32)] = true ∧
    ∀ a, Memory.read [(0, 1#32), (1023, 7#32)] a = Memory.read [(0, 1#32), (1023, 7#32)] a :=
  ⟨by decide, fun _ => rfl⟩

theorem witness_OnlyWriteMem :
    ∃ t, step (running [1#32] [1023#32, 9#32] []) = .next t ∧ t.status.state ≠ .faulted ∧
      memRead 1023 t ≠ memRead 1023 (running [1#32] [1023#32, 9#32] []) :=
  ⟨_, rfl, by decide, by decide⟩

theorem witness_NoRun : ∃ t, runSteps 1 (running [0x6A#32] [] []) = .next t := ⟨_, rfl⟩

theorem witness_StepRuns :
    (running [0x6A#32] [] []).status.state = .running ∧ fetch (running [0x6A#32] [] []) = some 0x6A#32 ∧
      decode 0x6A#32 = .ok (.loadConst 1#26) ∧ ∃ t, exec (.loadConst 1#26) (running [0x6A#32] [] []) = .next t :=
  ⟨rfl, rfl, by decide, _, rfl⟩

theorem witness_Unassigned :
    (running [0#32] [] []).status.state = .running ∧ fetch (running [0#32] [] []) = some 0#32 ∧
      0#32 &&& 0x3F#32 ≠ 1#32 ∧ 0#32 &&& 0x3F#32 ≠ 23#32 ∧ 0#32 &&& 0x3F#32 ≠ 42#32 ∧ 0#32 &&& 0x3F#32 ≠ 60#32 ∧
      (decodeRecord 0#32).assigned = false := by decide

theorem witness_NoInstruction :
    State.reset.status.state ≠ .running ∧ (running [] [] []).status.state = .running ∧
      (running [] [] []).ip = (running [] [] []).program.length := by decide

theorem witness_IpAdvances :
    (∃ t i, step (running [0x6A#32] [] []) = .next t ∧ nextAction (running [0x6A#32] [] []) = .execute i ∧
      t.status.state ≠ .faulted) ∧
    (∃ t, step State.reset = .next t ∧ ¬ ∃ i, nextAction State.reset = .execute i) ∧
    (∃ t, step (running [0#32] [] []) = .next t ∧ (running [0#32] [] []).status.state = .running ∧
      t.status.state = .faulted) :=
  ⟨⟨_, _, rfl, rfl, by decide⟩, ⟨_, rfl, by rintro ⟨i, h⟩; cases h⟩, ⟨_, rfl, rfl, rfl⟩⟩

theorem witness_StepIsPseudocode :
    (running [0x6A#32, 1#32] [] []).status.state = .running ∧
      (running [0x6A#32, 1#32] [] []).ip + 1 < (running [0x6A#32, 1#32] [] []).program.length ∧
      (running [0x6A#32] [] []).ip ≤ (running [0x6A#32] [] []).program.length := by decide

theorem witness_FaultEntry :
    (∃ t, step (running [0x3C#32] [] []) = .next t ∧ t.status.state = .faulted ∧
      runSteps 1 t = .next t) ∧
    State.reset.status.state = .idle ∧
    (hostOpWith { stackCap := none, progMax := some 0 } (.load [1#8, 0#8, 0#8, 0#8]) State.reset).2.status.state =
      .faulted :=
  ⟨⟨_, rfl, by decide, runSteps_of_not_running 1 (by decide)⟩, rfl, by decide⟩

theorem witness_EndedRun :
    ended (haltedCore [] []) ∧ (∃ t, step (haltedCore [] []) = .next t) ∧ HostOp.readStack ≠ .reset :=
  ⟨.inl rfl, ⟨_, rfl⟩, by decide⟩

theorem witness_HostLearnsNothing : (running [0x6A#32] [] []).status.state ≠ .halted := by decide

theorem witness_BadFiles :
    State.reset.status.state = .idle ∧ [0x2A#8, 0, 0, 0, 1#8].length % 4 ≠ 0 ∧
      [1#8, 0, 0, 0, 1#8, 0, 0, 0, 1#8, 0, 0, 0].length % 4 = 0 ∧
      2 < [1#8, 0, 0, 0, 1#8, 0, 0, 0, 1#8, 0, 0, 0].length / 4 ∧
      (∀ n, some 3 = some n → [1#8, 0, 0, 0, 1#8, 0, 0, 0, 1#8, 0, 0, 0].length / 4 ≤ n) :=
  ⟨rfl, by decide, by decide, by decide, by rintro n h; cases h; decide⟩

theorem witness_Load :
    State.reset.status.state = .idle ∧ [0x6A#8, 0, 0, 0].length % 4 = 0 ∧
      (∀ n, some 1 = some n → [0x6A#8, 0, 0, 0].length / 4 ≤ n) ∧ State.reset.ip < [0x6A#8, 0, 0, 0].length / 4 :=
  ⟨rfl, by decide, by rintro n h; cases h; decide, by decide⟩

theorem witness_Dump :
    (haltedCore [] []).status.state = .halted ∧ 1023 ≤ 1023 ∧ 1023 < Config.memSize ∧
      ¬ (3 ≤ 2 ∧ 2 < Config.memSize) ∧ ¬ (0 ≤ 1024 ∧ 1024 < Config.memSize) ∧ State.reset.status.state ≠ .halted := by
  decide

theorem witness_HostOperations :
    acceptedIn (.load []) (running [] [] []).status.state = false ∧ (haltedCore [] []).status.state = .halted ∧
      State.reset.status.state = .idle ∧ HostOp.readStatus ≠ .reset := by decide

/-- A Running core that meets the invariant, at the last index of its program. -/
theorem witness_Invariant : CoreInv (running [0x6A#32] [] [(1023, 7#32)]) where
  memory_wf := by decide
  ip_le := by decide
  status_legal := by simp [statusLegal, running]
  depth_le := fun _ _ => Nat.zero_le _
  idle_fresh := by simp [running]

theorem witness_EveryRun :
    (running [0x6A#32] [] [(1023, 7#32)]).status.state = .running ∧
      (running [0x6A#32] [] [(1023, 7#32)]).ip + 1 ≤ (running [0x6A#32] [] [(1023, 7#32)]).program.length := by decide

theorem witness_ParametricInvariant :
    capTwo.wellFormed = true ∧ CoreInvWith capTwo (running [0x6A#32] [2#32, 1#32] [(1023, 7#32)]) :=
  ⟨by decide, by decide, by decide, by simp [statusLegal, running], by intro n h; cases h; decide, by simp [running]⟩

/-- One push that fills a stack of capacity 2. -/
theorem witness_RunsWithinTheCap :
    capTwo.wellFormed = true ∧ capTwo.stackCap = some 2 ∧
      ∀ j, j ≤ 1 → ∃ u, runStepsWith { capTwo with stackCap := none } j (running [0x6A#32] [1#32] []) = .next u ∧
        u.status.state ≠ .faulted ∧ u.stack.length ≤ 2 := by
  refine ⟨by decide, by decide, fun j hj => ?_⟩
  obtain rfl | rfl : j = 0 ∨ j = 1 := by omega
  · exact ⟨_, rfl, by decide, by decide⟩
  · exact ⟨_, rfl, by decide, by decide⟩

/-- Both sides of the overflow statement are met: at the cap by a push, and not by BITREVERSE. -/
theorem witness_ParametricOverflow :
    capTwo.wellFormed = true ∧ (running [0xEA#32] [2#32, 1#32] []).status.state = .running ∧
      faultsWith .stackOverflow (running [0xEA#32] [2#32, 1#32] [])
        (stepWith capTwo (running [0xEA#32] [2#32, 1#32] [])) ∧
      outcomeStatus (stepWith capTwo (running [0x3C#32] [2#32, 1#32] [])) =
        some { state := .halted, cause := none, faultIp := none } :=
  ⟨by decide, by decide, ⟨_, rfl, by decide, by decide, by decide⟩, by decide⟩

theorem witness_Reachable : Reachable (hostOp (.load [0x6A#8, 1#8, 0#8, 0#8]) State.reset).2 :=
  .host _ _ .reset

theorem witness_Accounting :
    started (running [0x6A#32, 1#32] [] []) ∧
      ∃ t, runSteps 1 (running [0x6A#32, 1#32] [] []) = .next t ∧ t.status.state ≠ .faulted ∧
        t.status.state = .running :=
  ⟨⟨rfl, rfl, rfl, rfl⟩, _, rfl, by decide, by decide⟩

theorem witness_Assembler :
    assemble '#' [['W', 'R', 'I', 'T', 'E', '_', 'M', 'E', 'M']] = .ok [1#32] ∧
      (∀ c ∈ [' ', ' '], Char.isWhitespace c = true) ∧ tokens ['#', 'x'] = ['#', 'x'] :: [] ∧
      ['#', 'x'].head? = some '#' :=
  ⟨by decide, by simp, by decide, by decide⟩

end Sys2Proof.Tests
end

section
/-! SUPPORT. The push of 10_state.md R20, and the legal combinations of the status record (R24): what each shared
update of the state makes of them, what a step and a host operation can leave, and the invariant that carries them
through every reachable state. -/

namespace Sys2Proof.Machine

/-! ### The push -/

/-- Settles O17: under admissible parameters a stack is full exactly when its depth is the cap. -/
theorem pushAppendsOrOverflows : Obligations.PushAppendsOrOverflows := by
  unfold Obligations.PushAppendsOrOverflows
  intro p v s hp
  have hfull : stackFull p s.stack = true ↔ p.stackCap = some s.stack.length :=
    stackFull_eq_true_iff (fun _ => Params.two_le_of_wellFormed hp) s.stack
  rw [push_eq]
  refine ⟨fun hcap => ?_, fun hroom => ?_⟩
  · rw [if_pos (hfull.mpr hcap)]
    exact ⟨rfl, _, complete_error .., rfl, rfl, rfl⟩
  · rw [if_neg (mt hfull.mp hroom)]
    exact ⟨_, rfl, List.reverse_cons, List.length_cons, rfl⟩

/-! ### The legal status records -/

/-- The five rows of 10_state.md R24, written out. -/
theorem statusLegal_iff (s : State) :
    statusLegal s ↔
      (s.status = { state := .idle, cause := none, faultIp := none }) ∨
      (s.status = { state := .running, cause := none, faultIp := none } ∧ s.ip < s.program.length) ∨
      (s.status = { state := .halted, cause := none, faultIp := none } ∧ s.ip = s.program.length) ∨
      (∃ c i, s.status = { state := .faulted, cause := some c, faultIp := some i } ∧ c.isLoad = false ∧
        i < s.program.length) ∨
      (∃ c, s.status = { state := .faulted, cause := some c, faultIp := none } ∧ c.isLoad = true) := by
  obtain ⟨program, ip, stack, memory, ⟨state, cause, faultIp⟩, freeDrawn⟩ := s
  constructor
  · intro h
    simp only [statusLegal] at h
    split at h
    · exact .inl rfl
    · exact .inr (.inl ⟨rfl, h⟩)
    · exact .inr (.inr (.inl ⟨rfl, h⟩))
    · exact .inr (.inr (.inr (.inl ⟨_, _, rfl, h⟩)))
    · exact .inr (.inr (.inr (.inr ⟨_, rfl, h⟩)))
    · exact h.elim
  · rintro (h | ⟨h, hip⟩ | ⟨h, hip⟩ | ⟨c, i, h, hc⟩ | ⟨c, h, hc⟩) <;> cases h
    · trivial
    · exact hip
    · exact hip
    · exact hc
    · exact hc

/-- While the core runs there is no cause and no fault index, and an instruction is left to execute. -/
theorem statusLegal_running {s : State} (h : statusLegal s) (hr : s.status.state = .running) :
    s.status = { state := .running, cause := none, faultIp := none } ∧ s.ip < s.program.length := by
  rcases (statusLegal_iff s).mp h with h | h | ⟨h, -⟩ | ⟨_, _, h, -⟩ | ⟨_, h, -⟩
  case inr.inl => exact h
  all_goals rw [h] at hr; cases hr

/-! ### What a step and a host operation can leave -/

/-- The next state of a step: the old one, or a running core that halts, enters a fault, or completes an instruction. -/
theorem stepWith_next_cases {p : Params} {s t : State} (h : stepWith p s = .next t) :
    (s.status.state ≠ .running ∧ t = s) ∨
    (s.status.state = .running ∧ s.ip = s.program.length ∧ t = halt s) ∨
    (s.status.state = .running ∧ s.ip < s.program.length ∧ ∃ c, c.isLoad = false ∧ t = raise p c s) ∨
    (s.status.state = .running ∧ s.ip < s.program.length ∧ ∃ u, t = settle u ∧ u.program = s.program ∧
      u.ip = s.ip + 1 ∧ u.status = s.status) := by
  rcases stepWith_cases p s with ⟨hr, hs⟩ | ⟨hr, hip, hs⟩ | ⟨_, _, hs⟩ | ⟨_, _, hr, hlt, _, _, hs⟩ |
    ⟨_, i, hr, hlt, _, _, _, hs⟩
  · exact .inl ⟨hr, by simpa [hs] using h.symm⟩
  · exact .inr (.inl ⟨hr, hip, by simpa [hs] using h.symm⟩)
  · simp [hs] at h
  · exact .inr (.inr (.inl ⟨hr, hlt, .unknownOpcode, rfl, by simpa [hs] using h.symm⟩))
  · rcases stepWith_execute_cases hs with ⟨u, _, hu, hprog, hip, hstatus, _⟩ | ⟨c, hc, _, hraise⟩
    · exact .inr (.inr (.inr ⟨hr, hlt, u, by simpa [hu] using h.symm, hprog, hip, hstatus⟩))
    · exact .inr (.inr (.inl ⟨hr, hlt, c, hc, by simpa [hraise] using h.symm⟩))

/-- Load (70_reset_and_hazards.md R130): a load fault, or the start of the program with the halting move. -/
theorem loadProgram_cases (p : Params) (bytes : List Byte) (s : State) :
    (∃ c, c.isLoad = true ∧ loadProgram p bytes s = raiseLoad c s) ∨
    loadProgram p bytes s =
      settle { s with
        program := wordsOfBytes bytes
        status := { state := .running, cause := none, faultIp := none } } := by
  unfold loadProgram
  split
  · exact .inl ⟨_, rfl, rfl⟩
  · split
    · exact .inl ⟨_, rfl, rfl⟩
    · exact .inr rfl

/-- The state a host operation leaves: only Reset, and Load in Idle, write any of it (70_reset_and_hazards.md R132). -/
theorem hostOpWith_state_cases (p : Params) (op : HostOp) (s : State) :
    (hostOpWith p op s).2 = s ∨ (hostOpWith p op s).2 = hostReset s ∨
    (s.status.state = .idle ∧ ∃ bytes, (hostOpWith p op s).2 = loadProgram p bytes s) := by
  cases op with
  | reset => exact .inr (.inl rfl)
  | load bytes =>
    by_cases hidle : s.status.state = .idle
    · exact .inr (.inr ⟨hidle, bytes, by simp [hostOpWith, hidle]⟩)
    · exact .inl (by simp [hostOpWith, hidle])
  | readStatus => exact .inl rfl
  | dump start stop =>
    refine .inl ?_
    simp only [hostOpWith]
    split
    · split <;> rfl
    · rfl
  | readStack =>
    refine .inl ?_
    simp only [hostOpWith]
    split <;> rfl

/-! ### The invariant -/

/-- The status record is legal, and while Idle `ip` is 0: Load does not write `ip`, so the second part is what makes the
status it leaves legal. -/
structure StatusInv (s : State) : Prop where
  legal : statusLegal s
  ip_of_idle : s.status.state = .idle → s.ip = 0

theorem statusInv_reset : StatusInv State.reset := ⟨trivial, fun _ => rfl⟩

theorem statusInv_hostReset (s : State) : StatusInv (hostReset s) := ⟨trivial, fun _ => rfl⟩

theorem statusInv_halt {s : State} (hip : s.ip = s.program.length) : StatusInv (halt s) :=
  ⟨hip, by simp⟩

theorem statusInv_raise (p : Params) {c : Cause} {s : State} (hc : c.isLoad = false)
    (hlt : s.ip < s.program.length) : StatusInv (raise p c s) :=
  ⟨⟨hc, hlt⟩, by simp⟩

theorem statusInv_raiseLoad {c : Cause} (s : State) (hc : c.isLoad = true) : StatusInv (raiseLoad c s) :=
  ⟨hc, by simp⟩

/-- A core that runs with `ip` at most `N` has a legal status once the halting move is taken. -/
theorem statusInv_settle {s : State}
    (hs : s.status = { state := .running, cause := none, faultIp := none })
    (hip : s.ip ≤ s.program.length) : StatusInv (settle s) := by
  unfold settle
  split
  · next h => exact statusInv_halt h.2
  · next h =>
    have hne : s.ip ≠ s.program.length := fun he => h ⟨by rw [hs], he⟩
    exact ⟨(statusLegal_iff s).mpr (.inr (.inl ⟨hs, by omega⟩)), by simp [hs]⟩

theorem statusInv_stepWith {p : Params} {s t : State} (hinv : StatusInv s) (h : stepWith p s = .next t) :
    StatusInv t := by
  rcases stepWith_next_cases h with ⟨_, rfl⟩ | ⟨_, hip, rfl⟩ | ⟨_, hlt, c, hc, rfl⟩ |
    ⟨hr, hlt, u, rfl, hprog, hip, hstatus⟩
  · exact hinv
  · exact statusInv_halt hip
  · exact statusInv_raise p hc hlt
  · have hrun := (statusLegal_running hinv.legal hr).1
    exact statusInv_settle (hstatus.trans hrun) (by rw [hprog, hip]; exact hlt)

theorem statusInv_loadProgram (p : Params) (bytes : List Byte) {s : State} (hip : s.ip = 0) :
    StatusInv (loadProgram p bytes s) := by
  rcases loadProgram_cases p bytes s with ⟨c, hc, h⟩ | h
  · rw [h]
    exact statusInv_raiseLoad s hc
  · rw [h]
    exact statusInv_settle rfl (hip ▸ Nat.zero_le _)

theorem statusInv_hostOpWith (p : Params) (op : HostOp) {s : State} (hinv : StatusInv s) :
    StatusInv (hostOpWith p op s).2 := by
  rcases hostOpWith_state_cases p op s with h | h | ⟨hidle, bytes, h⟩
  · rwa [h]
  · rw [h]
    exact statusInv_hostReset s
  · rw [h]
    exact statusInv_loadProgram p bytes (hinv.ip_of_idle hidle)

theorem statusInv_of_reachable {s : State} (h : Reachable s) : StatusInv s := by
  induction h with
  | reset => exact statusInv_reset
  | step s t _ hs ih => exact statusInv_stepWith ih (step_eq s ▸ hs)
  | host s op _ ih => exact statusInv_hostOpWith Config.params op ih

/-- Settles O41: the status is part of an invariant that reset, every step and every host operation keep. -/
theorem reachableStatusIsLegal : Obligations.ReachableStatusIsLegal := by
  unfold Obligations.ReachableStatusIsLegal
  exact fun s h => (statusLegal_iff s).mp (statusInv_of_reachable h).legal

end Sys2Proof.Machine
end

section
/-! SUPPORT. The memory interface of 20_memory.md: the write port on one cell (R36), the program store no step writes
(R43), with the induction over runs that later statements can use, and the dump port (R37). -/

namespace Sys2Proof.Machine

/-! ### The write port -/

/-- Read after write (20_memory.md R36), on the state. -/
theorem memRead_memWrite (c a : Nat) (v : Word) (s : State) :
    memRead c (memWrite a v s) = if c = a then v else memRead c s :=
  Memory.read_write s.memory a c v

/-- Settles O19: the write gives its cell the value and keeps every other cell, and `memory` is the one field it sets. -/
theorem memWriteChangesExactlyItsCell : Obligations.MemWriteChangesExactlyItsCell := by
  unfold Obligations.MemWriteChangesExactlyItsCell
  exact fun a v s _ => ⟨fun c => memRead_memWrite c a v s, rfl⟩

/-! ### The program store -/

/-- What every step keeps, a run of any length keeps. -/
theorem runSteps_keeps {P : State → Prop} (hstep : ∀ s t, P s → step s = .next t → P t)
    {k : Nat} {s t : State} (hs : P s) (h : runSteps k s = .next t) : P t := by
  induction k generalizing s with
  | zero => cases h; exact hs
  | succ k ih =>
    rw [runSteps_succ] at h
    split at h
    · next u hu => exact ih (hstep s u hs hu) h
    · cases h
    · cases h

/-- No step writes the program store: not the halting move, not the entry into a fault, not an instruction. -/
theorem stepWith_program {p : Params} {s t : State} (h : stepWith p s = .next t) : t.program = s.program := by
  rcases stepWith_next_cases h with ⟨_, rfl⟩ | ⟨_, _, rfl⟩ | ⟨_, _, c, _, rfl⟩ | ⟨_, _, u, rfl, hprog, _, _⟩
  · rfl
  · exact halt_program s
  · exact raise_program p c s
  · exact (settle_program u).trans hprog

theorem step_program {s t : State} (h : step s = .next t) : t.program = s.program :=
  stepWith_program (step_eq s ▸ h)

/-- Settles O22: "the program is still that of `s`" is kept by every step. -/
theorem noRunChangesTheProgram : Obligations.NoRunChangesTheProgram := by
  unfold Obligations.NoRunChangesTheProgram
  exact fun k s t h =>
    runSteps_keeps (P := fun u => u.program = s.program) (fun _ _ hu hstep => (step_program hstep).trans hu) rfl h

/-! ### The dump port -/

theorem dumpRangeLegal_iff (start stop : Nat) :
    dumpRangeLegal start stop = true ↔ start ≤ stop ∧ stop < Config.memSize := by
  simp [dumpRangeLegal]

theorem length_dumpCells (start stop : Nat) (s : State) :
    (dumpCells start stop s).length = stop + 1 - start := by
  simp [dumpCells]

/-- Pair `k` of the read-out is that of cell `start + k`. -/
theorem getElem?_dumpCells {start stop k : Nat} (s : State) (hk : k < stop + 1 - start) :
    (dumpCells start stop s)[k]? = some (start + k, memRead (start + k) s) := by
  simp [dumpCells, hk]

theorem hostOp_dump_of_not_halted (start stop : Nat) {s : State} (h : s.status.state ≠ .halted) :
    hostOp (.dump start stop) s = (.refused, s) :=
  if_neg h

/-- In Halted the range alone decides Dump's answer (20_memory.md R37). -/
theorem hostOp_dump_of_halted (start stop : Nat) {s : State} (h : s.status.state = .halted) :
    hostOp (.dump start stop) s =
      if start ≤ stop ∧ stop < Config.memSize then (.cells (dumpCells start stop s), s)
      else (.rangeOutOfBounds, s) := by
  simp only [hostOp, hostOpWith, if_pos h, dumpRangeLegal_iff]

/-- Dump answers and leaves the state as it is, whether refused or not. -/
theorem hostOp_dump_state (start stop : Nat) (s : State) : (hostOp (.dump start stop) s).2 = s := by
  by_cases h : s.status.state = .halted
  · rw [hostOp_dump_of_halted start stop h]
    split <;> rfl
  · rw [hostOp_dump_of_not_halted start stop h]

/-- Settles O36: the three answers of Dump, and the length and the entries of the read-out of a legal range. -/
theorem dumpReadsOutTheInclusiveRange : Obligations.DumpReadsOutTheInclusiveRange := by
  unfold Obligations.DumpReadsOutTheInclusiveRange
  intro start stop s
  refine ⟨hostOp_dump_state start stop s, fun hstate => ?_, fun hhalted hrange => ?_, fun hhalted hle hlt => ?_⟩
  · rw [hostOp_dump_of_not_halted start stop hstate]
  · rw [hostOp_dump_of_halted start stop hhalted, if_neg hrange]
  · rw [hostOp_dump_of_halted start stop hhalted, if_pos ⟨hle, hlt⟩]
    have hlen : (dumpCells start stop s).length = stop - start + 1 := by
      rw [length_dumpCells, Nat.sub_add_comm hle]
    exact ⟨_, rfl, hlen, fun k hk => getElem?_dumpCells s (by omega)⟩

end Sys2Proof.Machine
end

section
/-! SUPPORT. The encoding of 30_encoding.md: words, records and bytes as numbers (R48, R51, R54), from which the round
trips follow by arithmetic, and the opcode map read off the low six bits of a word (R55). -/

namespace Sys2Proof

/-! ### Records and words -/

theorem decodeRecord_opcode_setWidth (w : Word) : (decodeRecord w).opcode.setWidth 32 = w &&& 0x3F#32 := by
  have hlt : w.toNat &&& 63 < 64 := Nat.and_lt_two_pow (n := 6) _ (by decide)
  apply BitVec.eq_of_toNat_eq
  simp only [decodeRecord, BitVec.toNat_setWidth, BitVec.toNat_and, BitVec.toNat_ofNat, Nat.reducePow, Nat.reduceMod]
  omega

theorem decodeRecord_operand_setWidth (w : Word) : (decodeRecord w).operand.setWidth 32 = w >>> 6 := by
  apply BitVec.eq_of_toNat_eq
  simp only [decodeRecord, BitVec.toNat_setWidth, BitVec.toNat_ushiftRight, Nat.shiftRight_eq_div_pow]
  omega

/-- Settles O1: each field as the bits of the word, and widened again as the masked or shifted word. -/
theorem decodeSplitsEveryWordAtBitSix : Obligations.DecodeSplitsEveryWordAtBitSix := by
  unfold Obligations.DecodeSplitsEveryWordAtBitSix
  exact fun w => ⟨decodeRecord_opcode w, decodeRecord_opcode_setWidth w, decodeRecord_operand w,
    decodeRecord_operand_setWidth w⟩

theorem decodeRecord_opcode_toNat (w : Word) : (decodeRecord w).opcode.toNat = w.toNat % 64 := by
  rw [decodeRecord_opcode, BitVec.extractLsb'_toNat, Nat.shiftRight_zero]

theorem decodeRecord_operand_toNat (w : Word) : (decodeRecord w).operand.toNat = w.toNat / 64 := by
  rw [decodeRecord_operand, BitVec.extractLsb'_toNat, Nat.shiftRight_eq_div_pow]
  omega

/-- The packing of 30_encoding.md R51, on numbers: the two fields do not overlap and nothing is cut off. -/
theorem encodeRecord_toNat (r : Record) : (encodeRecord r).toNat = r.operand.toNat <<< 6 ||| r.opcode.toNat := by
  have hoperand : r.operand.toNat <<< 6 < 2 ^ 32 := by
    rw [Nat.shiftLeft_eq]; omega
  simp only [encodeRecord, BitVec.toNat_or, BitVec.toNat_shiftLeft, BitVec.toNat_setWidth]
  rw [Nat.mod_eq_of_lt (a := r.operand.toNat) (by omega), Nat.mod_eq_of_lt hoperand,
    Nat.mod_eq_of_lt (by omega)]

theorem encodeRecord_toNat_add (r : Record) : (encodeRecord r).toNat = r.operand.toNat * 64 + r.opcode.toNat := by
  rw [encodeRecord_toNat, ← Nat.shiftLeft_add_eq_or_of_lt r.opcode.isLt, Nat.shiftLeft_eq]

theorem decodeRecord_encodeRecord (r : Record) : decodeRecord (encodeRecord r) = r := by
  have hsum := encodeRecord_toNat_add r
  have hopcode : (decodeRecord (encodeRecord r)).opcode = r.opcode :=
    BitVec.eq_of_toNat_eq (by rw [decodeRecord_opcode_toNat]; omega)
  have hoperand : (decodeRecord (encodeRecord r)).operand = r.operand :=
    BitVec.eq_of_toNat_eq (by rw [decodeRecord_operand_toNat]; omega)
  exact congrArg₂ Record.mk hopcode hoperand

theorem encodeRecord_decodeRecord (w : Word) : encodeRecord (decodeRecord w) = w := by
  apply BitVec.eq_of_toNat_eq
  rw [encodeRecord_toNat_add, decodeRecord_opcode_toNat, decodeRecord_operand_toNat]
  omega

/-- Settles O2: quotient and remainder by 64 are inverse to the packing. -/
theorem recordsAndWordsRoundTrip : Obligations.RecordsAndWordsRoundTrip := by
  unfold Obligations.RecordsAndWordsRoundTrip
  exact ⟨decodeRecord_encodeRecord, encodeRecord_decodeRecord⟩

/-! ### Words and bytes -/

theorem bytesOfWord_foldr (w : Word) :
    ((bytesOfWord w).map BitVec.toNat).foldr (fun x n => x + 256 * n) 0 = w.toNat := by
  simp only [bytesOfWord, List.map_cons, List.map_nil, List.foldr_cons, List.foldr_nil,
    BitVec.extractLsb'_toNat, Nat.shiftRight_eq_div_pow]
  omega

/-- A byte keeps its value when it is widened and moved to its place in a word. -/
theorem toNat_setWidth_shiftLeft (b : Byte) {k : Nat} (hk : k ≤ 24) :
    (b.setWidth 32 <<< k).toNat = b.toNat <<< k := by
  have hb : b.toNat <<< k < 2 ^ 32 :=
    calc b.toNat <<< k < 2 ^ (8 + k) := Nat.shiftLeft_lt b.isLt
      _ ≤ 2 ^ 32 := Nat.pow_le_pow_right (by decide) (by omega)
  rw [BitVec.toNat_shiftLeft, BitVec.toNat_setWidth, Nat.mod_eq_of_lt (a := b.toNat) (by omega), Nat.mod_eq_of_lt hb]

/-- The layout of 30_encoding.md R54, on numbers: no byte is cut off. -/
theorem wordOfBytes_toNat (b0 b1 b2 b3 : Byte) :
    (wordOfBytes b0 b1 b2 b3).toNat =
      (b0.toNat ||| b1.toNat <<< 8 ||| b2.toNat <<< 16 ||| b3.toNat <<< 24) := by
  rw [wordOfBytes, BitVec.toNat_or, BitVec.toNat_or, BitVec.toNat_or, BitVec.toNat_setWidth_of_le (by decide),
    toNat_setWidth_shiftLeft b1 (by decide), toNat_setWidth_shiftLeft b2 (by decide),
    toNat_setWidth_shiftLeft b3 (by decide)]

theorem wordOfBytes_toNat_add (b0 b1 b2 b3 : Byte) :
    (wordOfBytes b0 b1 b2 b3).toNat =
      b0.toNat + 256 * (b1.toNat + 256 * (b2.toNat + 256 * b3.toNat)) := by
  have hor : ∀ a b k : Nat, a < 2 ^ k → a ||| b <<< k = b * 2 ^ k + a := fun a b k ha => by
    rw [Nat.or_comm, ← Nat.shiftLeft_add_eq_or_of_lt ha, Nat.shiftLeft_eq]
  rw [wordOfBytes_toNat, hor _ _ 8 b0.isLt, hor _ _ 16 (by omega), hor _ _ 24 (by omega)]
  omega

theorem wordOfBytes_extract (w : Word) :
    wordOfBytes (w.extractLsb' 0 8) (w.extractLsb' 8 8) (w.extractLsb' 16 8) (w.extractLsb' 24 8) = w :=
  BitVec.eq_of_toNat_eq ((wordOfBytes_toNat_add ..).trans (bytesOfWord_foldr w))

theorem bytesOfWord_wordOfBytes (b0 b1 b2 b3 : Byte) :
    bytesOfWord (wordOfBytes b0 b1 b2 b3) = [b0, b1, b2, b3] := by
  have hbyte : ∀ (k : Nat) (b : Byte), (wordOfBytes b0 b1 b2 b3).toNat / 2 ^ k % 256 = b.toNat →
      (wordOfBytes b0 b1 b2 b3).extractLsb' k 8 = b := fun k b h =>
    BitVec.eq_of_toNat_eq (by rwa [BitVec.extractLsb'_toNat, Nat.shiftRight_eq_div_pow])
  have hsum := wordOfBytes_toNat_add b0 b1 b2 b3
  rw [bytesOfWord, hbyte 0 b0 (by omega), hbyte 8 b1 (by omega), hbyte 16 b2 (by omega), hbyte 24 b3 (by omega)]

/-- Settles O5: the word is the number its bytes are the base-256 digits of, least significant first. -/
theorem wordsAreStoredLittleEndian : Obligations.WordsAreStoredLittleEndian := by
  unfold Obligations.WordsAreStoredLittleEndian
  refine ⟨fun w => ⟨_, _, _, _, rfl, rfl, rfl, rfl, rfl, wordOfBytes_extract w⟩, fun b0 b1 b2 b3 => ?_, by decide⟩
  exact ⟨bytesOfWord_wordOfBytes b0 b1 b2 b3, wordOfBytes_toNat b0 b1 b2 b3⟩

/-! ### The toolchain's encoder -/

theorem encodeOperand_some_toNat (a : Opcode) (b : Int) :
    (encodeOperand a (some b)).toNat = ((b % 2 ^ 26).toNat <<< 6 ||| a.toNat) := by
  rw [encodeOperand, encodeRecord_toNat, BitVec.toNat_ofInt]
  rfl

/-- 30_encoding.md R53: an operand counts mod 2^26 only. -/
theorem encodeOperand_add_two_pow_26 (a : Opcode) (b : Int) :
    encodeOperand a (some (b + 2 ^ 26)) = encodeOperand a (some b) := by
  apply BitVec.eq_of_toNat_eq
  rw [encodeOperand_some_toNat, encodeOperand_some_toNat, Int.add_emod_right]

/-- Settles O4: the packing of a record with its operand reduced; 2^26 is 0 + 2^26, and an absent operand is 0. -/
theorem encoderPacksOperandModTwoPow26 : Obligations.EncoderPacksOperandModTwoPow26 := by
  unfold Obligations.EncoderPacksOperandModTwoPow26
  exact ⟨fun a b => ⟨encodeOperand_some_toNat a b, encodeOperand_add_two_pow_26 a b⟩,
    fun a => encodeOperand_add_two_pow_26 a 0, fun _ => rfl, fun a b => ⟨rfl, (bytesOfWord_foldr _).symm⟩⟩

/-! ### The opcode map -/

theorem decodeRecord_opcode_eq_iff (w : Word) (a : Opcode) :
    (decodeRecord w).opcode = a ↔ w &&& 0x3F#32 = a.setWidth 32 := by
  rw [← decodeRecord_opcode_setWidth]
  exact ⟨congrArg _, fun h => by simpa using congrArg (BitVec.setWidth 6) h⟩

/-- The decoder by the low six bits of the word (30_encoding.md R55, 40_decode_dispatch.md R76). -/
theorem decode_eq (w : Word) :
    decode w =
      if w &&& 0x3F#32 = 42#32 then .ok (.loadConst (w.extractLsb' 6 26))
      else if w &&& 0x3F#32 = 23#32 then .ok (.readMem (w.extractLsb' 6 26))
      else if w &&& 0x3F#32 = 1#32 then .ok (.writeMem (w.extractLsb' 6 26))
      else if w &&& 0x3F#32 = 60#32 then .ok (.bitreverse (w.extractLsb' 6 26))
      else .error (.unknownOpcode (w.extractLsb' 0 6)) := by
  simp only [decode, dispatch, decodeRecord_opcode_eq_iff, decodeRecord_operand]
  rw [decodeRecord_opcode]
  rfl

theorem decode_of_low_eq_1 {w : Word} (h : w &&& 0x3F#32 = 1#32) :
    decode w = .ok (.writeMem (w.extractLsb' 6 26)) := by
  rw [decode_eq, h]; rfl

theorem decode_of_low_eq_60 {w : Word} (h : w &&& 0x3F#32 = 60#32) :
    decode w = .ok (.bitreverse (w.extractLsb' 6 26)) := by
  rw [decode_eq, h]; rfl

/-- Settles O7: the low six bits select the branch of the decoder. -/
theorem opcodeMapIsComplete : Obligations.OpcodeMapIsComplete := by
  unfold Obligations.OpcodeMapIsComplete
  refine ⟨fun _ => decode_of_low_eq_1, fun w h => ?_, fun w h => ?_, fun _ => decode_of_low_eq_60,
    fun w h1 h23 h42 h60 => ?_⟩
  · rw [decode_eq, h]; rfl
  · rw [decode_eq, h]; rfl
  · rw [decode_eq, if_neg h42, if_neg h23, if_neg h1, if_neg h60]

end Sys2Proof
end

section
/-! SUPPORT. Binary program files: how a file is cut into words (30_encoding.md R59), and the three ways a load ends
(60_exceptions.md R114, R124, 70_reset_and_hazards.md R130). -/

namespace Sys2Proof

/-- A file with no first word is shorter than a word: the second case of the recursion of `wordsOfBytes`. -/
theorem length_lt_four_of_ne_cons {bytes : List Byte}
    (h : ∀ b0 b1 b2 b3 rest, bytes = b0 :: b1 :: b2 :: b3 :: rest → False) : bytes.length < 4 := by
  match bytes, h with
  | [], _ => simp
  | [_], _ => simp
  | [_, _], _ => simp
  | [_, _, _], _ => simp
  | b0 :: b1 :: b2 :: b3 :: rest, h => exact (h b0 b1 b2 b3 rest rfl).elim

theorem length_wordsOfBytes (bytes : List Byte) : (wordsOfBytes bytes).length = bytes.length / 4 := by
  induction bytes using wordsOfBytes.induct with
  | case1 b0 b1 b2 b3 rest ih =>
    simp only [wordsOfBytes, List.length_cons, ih]
    omega
  | case2 bytes h =>
    rw [wordsOfBytes.eq_2 bytes h, Nat.div_eq_of_lt (length_lt_four_of_ne_cons h), List.length_nil]

/-- Word `i` is built from bytes `4 i` to `4 i + 3` (30_encoding.md R59). -/
theorem getElem?_wordsOfBytes {bytes : List Byte} {i : Nat} (hi : i < bytes.length / 4) :
    ∃ b0 b1 b2 b3 : Byte,
      bytes[4 * i]? = some b0 ∧ bytes[4 * i + 1]? = some b1 ∧
      bytes[4 * i + 2]? = some b2 ∧ bytes[4 * i + 3]? = some b3 ∧
      (wordsOfBytes bytes)[i]? = some (wordOfBytes b0 b1 b2 b3) := by
  induction bytes using wordsOfBytes.induct generalizing i with
  | case1 b0 b1 b2 b3 rest ih =>
    cases i with
    | zero => exact ⟨b0, b1, b2, b3, rfl, rfl, rfl, rfl, rfl⟩
    | succ i => exact ih (by simp only [List.length_cons] at hi; omega)
  | case2 bytes h =>
    rw [Nat.div_eq_of_lt (length_lt_four_of_ne_cons h)] at hi
    exact absurd hi (Nat.not_lt_zero i)

namespace Machine

theorem programTooLong_eq_true_iff (p : Params) (words : Nat) :
    programTooLong p words = true ↔ ∃ n, p.progMax = some n ∧ n < words := by
  unfold programTooLong
  split <;> simp_all

theorem hostOpWith_load_of_idle (p : Params) (bytes : List Byte) {s : State} (h : s.status.state = .idle) :
    hostOpWith p (.load bytes) s = (.accepted, loadProgram p bytes s) :=
  if_pos h

theorem loadProgram_of_malformed (p : Params) {bytes : List Byte} (s : State) (h : bytes.length % 4 ≠ 0) :
    loadProgram p bytes s = raiseLoad .malformedBinaryLength s :=
  if_pos h

theorem loadProgram_of_tooLong {p : Params} {bytes : List Byte} (s : State) (h : bytes.length % 4 = 0)
    (hlong : programTooLong p (bytes.length / 4) = true) :
    loadProgram p bytes s = raiseLoad .programTooLarge s := by
  rw [loadProgram, if_neg (not_not_intro h), if_pos hlong]

/-- The successful load (70_reset_and_hazards.md R130), the halting move of an empty program included. -/
theorem loadProgram_of_fits {p : Params} {bytes : List Byte} (s : State) (h : bytes.length % 4 = 0)
    (hfits : programTooLong p (bytes.length / 4) = false) :
    loadProgram p bytes s =
      settle { s with
        program := wordsOfBytes bytes
        status := { state := .running, cause := none, faultIp := none } } := by
  rw [loadProgram, if_neg (not_not_intro h), if_neg (Bool.eq_false_iff.mp hfits)]

/-- Settles O6: the words of the file by induction on the index, and the program as the successful load leaves it. -/
theorem fileIsCutIntoWordsInOrder : Obligations.FileIsCutIntoWordsInOrder := by
  unfold Obligations.FileIsCutIntoWordsInOrder
  refine ⟨fun bytes _ => ⟨length_wordsOfBytes bytes, fun _ => getElem?_wordsOfBytes⟩,
    fun p bytes s h hfits hidle => ?_⟩
  rw [hostOpWith_load_of_idle p bytes hidle, loadProgram_of_fits s h hfits, settle_program]

/-- Settles O33: one way a load ends for each of the three kinds of file. -/
theorem badFilesAreRefusedBeforeAnyWordIsLoaded : Obligations.BadFilesAreRefusedBeforeAnyWordIsLoaded := by
  unfold Obligations.BadFilesAreRefusedBeforeAnyWordIsLoaded
  intro p bytes s hidle
  rw [hostOpWith_load_of_idle p bytes hidle]
  refine ⟨loadProgram_of_malformed p s, fun n hmax h hlt => ?_, fun h hmax => ?_⟩
  · exact loadProgram_of_tooLong s h ((programTooLong_eq_true_iff p _).mpr ⟨n, hmax, hlt⟩)
  · have hfits : programTooLong p (bytes.length / 4) = false := by
      rw [Bool.eq_false_iff, ne_eq, programTooLong_eq_true_iff]
      exact fun ⟨n, hn, hlt⟩ => (hmax n hn).not_gt hlt
    rw [loadProgram_of_fits s h hfits]
    exact ⟨mt (settle_faulted_iff _).mp nofun, settle_program _⟩

/-- Settles O35: no words fit under any parameters, and `ip` = 0 = `N` takes the halting move. -/
theorem emptyProgramIsHaltedAtOnce : Obligations.EmptyProgramIsHaltedAtOnce := by
  unfold Obligations.EmptyProgramIsHaltedAtOnce
  rintro p t rfl
  have hfits : programTooLong p 0 = false := by
    rw [Bool.eq_false_iff, ne_eq, programTooLong_eq_true_iff]
    exact fun ⟨n, _, hlt⟩ => Nat.not_lt_zero n hlt
  rw [hostOpWith_load_of_idle p [] rfl, loadProgram_of_fits State.reset rfl hfits]
  exact ⟨rfl, rfl, rfl, rfl, fun _ => rfl⟩

end Machine

end Sys2Proof
end

section
/-! SUPPORT. The ignored operand bits of 30_encoding.md R56: WRITE_MEM and BITREVERSE run the same whatever their
operand and whatever the program store holds, and the assembler emits their words with operand 0 (R64, R67). -/

namespace Sys2Proof.Machine

/-! ### Instructions that ignore their operand -/

/-- The outcomes of `i` and `i'` agree, whatever program stands in the store of the second. -/
def SameEffectUnderAnyProgram (i i' : Instr) : Prop :=
  ∀ (s t : State) (program : List Word), exec i s = .next t →
    exec i' { s with program := program } = .next { t with program := program }

theorem writeMem_sameEffect (b b' : Operand) : SameEffectUnderAnyProgram (.writeMem b) (.writeMem b') := by
  intro s t program h
  simp only [exec_eq, execWith, writeMemWith_eq] at h ⊢
  split at h
  · split at h
    · next haddr => cases h; exact if_pos haddr
    · next haddr => cases h; exact if_neg haddr
  · cases h; rfl

theorem bitreverse_sameEffect (b b' : Operand) : SameEffectUnderAnyProgram (.bitreverse b) (.bitreverse b') := by
  intro s t program h
  simp only [exec_eq, execWith, bitreverseWith_eq] at h ⊢
  split at h
  · cases h; rfl
  · cases h; rfl

/-- Words of opcode 1, and of opcode 60, differ only in an operand that has no effect (30_encoding.md R56). -/
theorem decode_ignored_operand {w w' : Word} (hw : w &&& 0x3F#32 = 1#32 ∨ w &&& 0x3F#32 = 60#32)
    (hw' : w' &&& 0x3F#32 = w &&& 0x3F#32) :
    ∃ i i', decode w = .ok i ∧ decode w' = .ok i' ∧ SameEffectUnderAnyProgram i i' := by
  rcases hw with h | h
  · exact ⟨_, _, decode_of_low_eq_1 h, decode_of_low_eq_1 (hw'.trans h), writeMem_sameEffect _ _⟩
  · exact ⟨_, _, decode_of_low_eq_60 h, decode_of_low_eq_60 (hw'.trans h), bitreverse_sameEffect _ _⟩

/-! ### A step under another program of the same length -/

/-- A running core executes the instruction its next word decodes to. -/
theorem step_of_fetch {s : State} {w : Word} {i : Instr} (hr : s.status.state = .running)
    (hf : fetch s = some w) (hd : decode w = .ok i) : step s = settleOutcome (exec i s) := by
  have hlt : s.ip < s.program.length := (List.getElem?_eq_some_iff.mp hf).1
  have ha : nextAction s = .execute i := by
    rw [nextAction_running hr, if_neg (by omega), hf]
    simp only [hd]
  rw [step, ha]
  rfl

theorem settleOutcome_eq_next {o : Host.Outcome State Fault Refusal} {t : State} :
    settleOutcome o = .next t ↔ ∃ u, o = .next u ∧ settle u = t := by
  cases o <;> simp [settleOutcome]

theorem exec_program {i : Instr} {s t : State} (h : exec i s = .next t) : t.program = s.program := by
  rcases exec_cases i s with ⟨u, hu, hprog, _⟩ | ⟨c, _, hc⟩
  · cases hu.symm.trans h
    exact hprog
  · cases hc.symm.trans h
    rfl

/-- The halting move looks at the length of the program only. -/
theorem settle_with_program {s : State} {program : List Word} (h : program.length = s.program.length) :
    settle { s with program := program } = { settle s with program := program } := by
  simp only [settle, h]
  split <;> rfl

/-- The step does not see which of two words with the same effect stands at `ip`. -/
theorem step_set_word {s t : State} {w w' : Word} {i i' : Instr} (hf : fetch s = some w)
    (hd : decode w = .ok i) (hd' : decode w' = .ok i') (hsame : SameEffectUnderAnyProgram i i')
    (hstep : step s = .next t) :
    step { s with program := s.program.set s.ip w' } = .next { t with program := s.program.set s.ip w' } := by
  by_cases hr : s.status.state = .running
  · rw [step_of_fetch hr hf hd, settleOutcome_eq_next] at hstep
    obtain ⟨u, hu, rfl⟩ := hstep
    have hlt : s.ip < s.program.length := (List.getElem?_eq_some_iff.mp hf).1
    have hf' : fetch { s with program := s.program.set s.ip w' } = some w' :=
      List.getElem?_set_self hlt
    have hstep' := step_of_fetch (s := { s with program := s.program.set s.ip w' }) hr hf' hd'
    rw [hstep', hsame s u _ hu, settleOutcome_eq_next]
    exact ⟨_, rfl, settle_with_program (by rw [List.length_set, exec_program hu])⟩
  · cases (step_of_not_running hr).symm.trans hstep
    exact step_of_not_running hr

/-! ### The words the assembler emits -/

/-- Only LOAD_CONST and READ_MEM take an operand (30_encoding.md R55). -/
theorem lookupMnemonic_takes_operand {name : List Char} {a : Opcode} (h : lookupMnemonic name = some (a, true)) :
    a = 42#6 ∨ a = 23#6 := by
  simp only [lookupMnemonic] at h
  split_ifs at h <;> cases h
  · exact .inl rfl
  · exact .inr rfl

/-- An emitted word is that of a known mnemonic, with an operand if the mnemonic takes one (30_encoding.md R64, R67). -/
theorem assembleTokens_ok {name : List Char} {operands : List (List Char)} {w : Word}
    (h : assembleTokens name operands = .ok w) :
    (∃ a, lookupMnemonic name = some (a, false) ∧ w = encodeOperand a none) ∨
    (∃ a n, lookupMnemonic name = some (a, true) ∧ w = encodeOperand a (some n)) := by
  unfold assembleTokens at h
  split at h
  · cases h
  · next a ha => cases h; exact .inl ⟨a, ha, rfl⟩
  · next a ha =>
    split at h
    · cases h
    · split at h
      · cases h
      · next n _ => cases h; exact .inr ⟨a, n, ha, rfl⟩

theorem encodeOperand_low (a : Opcode) (b : Option Int) : encodeOperand a b &&& 0x3F#32 = a.setWidth 32 :=
  encodeRecord_low _

theorem encodeOperand_none_high (a : Opcode) : encodeOperand a none >>> 6 = 0#32 := by
  rw [← decodeRecord_operand_setWidth, encodeOperand, decodeRecord_encodeRecord]
  rfl

/-- A word of opcode 1 or 60 comes from a mnemonic without operand (30_encoding.md R56, R67). -/
theorem assembleTokens_ignored_operand {name : List Char} {operands : List (List Char)} {w : Word}
    (h : assembleTokens name operands = .ok w) (hw : w &&& 0x3F#32 = 1#32 ∨ w &&& 0x3F#32 = 60#32) :
    w >>> 6 = 0#32 := by
  rcases assembleTokens_ok h with ⟨a, _, rfl⟩ | ⟨a, n, hlookup, rfl⟩
  · exact encodeOperand_none_high a
  · rw [encodeOperand_low] at hw
    rcases lookupMnemonic_takes_operand hlookup with rfl | rfl
    · exact absurd hw (by decide)
    · exact absurd hw (by decide)

/-- Settles O9: both words decode to instructions of the same effect, and the assembler gives neither an operand. -/
theorem ignoredOperandBitsChangeNothing : Obligations.IgnoredOperandBitsChangeNothing := by
  unfold Obligations.IgnoredOperandBitsChangeNothing
  refine ⟨fun s t w w' hf hw hw' hstep => ?_,
    fun w => ⟨fun h => ⟨_, decode_of_low_eq_1 h⟩, fun h => ⟨_, decode_of_low_eq_60 h⟩⟩,
    fun name operands w => assembleTokens_ignored_operand⟩
  obtain ⟨i, i', hd, hd', hsame⟩ := decode_ignored_operand hw hw'
  exact step_set_word hf hd hd' hsame hstep

end Sys2Proof.Machine
end

section
/-! SUPPORT. Dispatch and the end of a step (40_decode_dispatch.md R76 to R82): how `ip` moves on each path of a step,
and the agreement of the pseudocode of R82, one opcode at a time, with the instruction the word decodes to. -/

namespace Sys2Proof.Machine

/-! ### Unassigned opcodes -/

/-- A running core raises UnknownOpcode at a word that decodes to no instruction (40_decode_dispatch.md R77). -/
theorem step_of_decode_error {s : State} {w : Word} {e : DecodeError} (hr : s.status.state = .running)
    (hf : fetch s = some w) (hd : decode w = .error e) :
    step s = .next (raise Config.params .unknownOpcode s) := by
  have hlt : s.ip < s.program.length := (List.getElem?_eq_some_iff.mp hf).1
  have ha : nextAction s = .finish (.next (raise Config.params .unknownOpcode s)) := by
    rw [nextAction_running hr, if_neg (by omega), hf]
    simp only [hd]
  rw [step, ha]
  rfl

theorem faultEntered_raise (p : Params) (c : Cause) (s : State) : faultEntered c s (raise p c s) :=
  ⟨rfl, rfl, rfl⟩

/-- Settles O24: the word decodes to no instruction, and the step enters the fault the executor raises. -/
theorem unassignedOpcodeRaisesUnknownOpcode : Obligations.UnassignedOpcodeRaisesUnknownOpcode := by
  unfold Obligations.UnassignedOpcodeRaisesUnknownOpcode
  intro s w hr hf h1 h23 h42 h60
  obtain ⟨-, -, -, -, hunassigned⟩ := opcodeMapIsComplete
  exact ⟨_, step_of_decode_error hr hf (hunassigned w h1 h23 h42 h60), faultEntered_raise ..⟩

/-! ### The instruction index -/

/-- What a step leaves, by what it came to: no instruction and no fault, a fault, or a completed instruction. -/
theorem step_next_cases {s t : State} (h : step s = .next t) :
    ((¬ ∃ i, nextAction s = .execute i) ∧ t.ip = s.ip ∧
      (s.status.state = .running → t.status.state ≠ .faulted)) ∨
    (∃ c, t = raise Config.params c s) ∨
    (∃ i, nextAction s = .execute i ∧ t.ip = s.ip + 1 ∧
      (s.status.state = .running → t.status.state ≠ .faulted)) := by
  rcases step_cases s with ⟨hr, hs⟩ | ⟨hr, hip, hs⟩ | ⟨-, -, hs⟩ | ⟨_, _, -, -, -, -, hs⟩ |
    ⟨_, i, hr, -, -, -, ha, hs⟩
  · cases hs.symm.trans h
    exact .inl ⟨by simp [nextAction_of_not_running hr], rfl, fun hrun => absurd hrun hr⟩
  · cases hs.symm.trans h
    exact .inl ⟨by simp [nextAction_running hr, hip], halt_ip s, by simp⟩
  · cases hs.symm.trans h
  · cases hs.symm.trans h
    exact .inr (.inl ⟨_, rfl⟩)
  · rcases step_execute_cases hs with ⟨u, -, hu, -, hip, hstatus, -⟩ | ⟨c, -, -, hc⟩
    · cases hu.symm.trans h
      exact .inr (.inr ⟨i, ha, by rw [settle_ip, hip], fun _ => by simp [settle_faulted_iff, hstatus, hr]⟩)
    · cases hc.symm.trans h
      exact .inr (.inl ⟨c, rfl⟩)

/-- Settles O26: each of the three ways a step ends moves `ip` as its clause says. -/
theorem ipAdvancesByOneExactlyOnCompletion : Obligations.IpAdvancesByOneExactlyOnCompletion := by
  unfold Obligations.IpAdvancesByOneExactlyOnCompletion
  intro s t h
  rcases step_next_cases h with ⟨hnone, hip, hfine⟩ | ⟨c, rfl⟩ | ⟨i, ha, hip, hfine⟩
  · exact ⟨fun hi => absurd hi hnone, fun _ => hip, fun hr hf => absurd hf (hfine hr)⟩
  · exact ⟨fun _ hf => absurd rfl hf, fun _ => rfl, fun _ _ => ⟨rfl, rfl⟩⟩
  · exact ⟨fun _ _ => hip, fun hnone => absurd ⟨i, ha⟩ hnone, fun hr hf => absurd hf (hfine hr)⟩

/-! ### The pseudocode on the raw word -/

/-- LOAD_CONST's immediate is the pseudocode's `w >> 6` (30_encoding.md R50). -/
theorem immValue_operand (w : Word) : immValue (w.extractLsb' 6 26) = w >>> 6 := by
  rw [← decodeRecord_operand]
  exact decodeRecord_operand_setWidth w

/-- READ_MEM's address is the pseudocode's `w >> 6` (30_encoding.md R50). -/
theorem immAddress_operand (w : Word) : immAddress (w.extractLsb' 6 26) = (w >>> 6).toNat := by
  rw [← immValue_operand, immValue, immAddress, BitVec.toNat_setWidth_of_le (by decide)]

theorem stackFull_config (stack : List Word) :
    stackFull Config.params stack = true ↔ Config.params.stackCap = some stack.length :=
  stackFull_eq_true_iff (fun _ => Config.two_le_of_stackCap) stack

theorem literalStep_of_length {s : State} (h : s.ip = s.program.length) : literalStep s = halt s :=
  if_pos h

/-- The arm of an assigned opcode does what the decoded instruction does. -/
theorem exec_eq_literalStep {s : State} {w : Word} {i : Instr} (hf : fetch s = some w) (hd : decode w = .ok i) :
    exec i s = .next (literalStep s) := by
  have hlt : s.ip < s.program.length := (List.getElem?_eq_some_iff.mp hf).1
  have hword : (s.program[s.ip]?).getD 0#32 = w := congrArg (Option.getD · 0#32) hf
  rw [decode_eq] at hd
  rw [literalStep, if_neg hlt.ne, hword, exec_eq]
  split_ifs at hd with h42 h23 h1 h60 <;> cases hd
  · simp only [execWith, loadConstWith_eq, stackFull_config, immValue_operand, h42]
    simp only [BitVec.reduceToNat, ↓reduceIte]
    split <;> rfl
  · simp only [execWith, readMemWith_eq, stackFull_config, immAddress_operand, h23]
    simp only [BitVec.reduceToNat, Nat.reduceEqDiff, ↓reduceIte]
    by_cases haddr : (w >>> 6).toNat < Config.memSize
    · rw [if_pos haddr, if_neg (Nat.not_le.mpr haddr)]
      split <;> rfl
    · rw [if_neg haddr, if_pos (Nat.not_lt.mp haddr)]
  · simp only [execWith, writeMemWith_eq, h1]
    simp only [BitVec.reduceToNat, Nat.reduceEqDiff, ↓reduceIte]
    match s.stack with
    | [] => rfl
    | [_] => rfl
    | a :: v :: rest =>
      by_cases haddr : stackAddress a < Config.memSize
      · exact (if_pos haddr).trans (congrArg _ (if_neg (Nat.not_le.mpr haddr)).symm)
      · exact (if_neg haddr).trans (congrArg _ (if_pos (Nat.not_lt.mp haddr)).symm)
  · simp only [execWith, bitreverseWith_eq, h60]
    simp only [BitVec.reduceToNat, Nat.reduceEqDiff, ↓reduceIte]
    match s.stack with
    | [] => rfl
    | _ :: _ => rfl

/-- An unassigned opcode reaches the last arm. -/
theorem literalStep_of_decode_error {s : State} {w : Word} {e : DecodeError} (hf : fetch s = some w)
    (hd : decode w = .error e) : literalStep s = raise Config.params .unknownOpcode s := by
  have hlt : s.ip < s.program.length := (List.getElem?_eq_some_iff.mp hf).1
  have hword : (s.program[s.ip]?).getD 0#32 = w := congrArg (Option.getD · 0#32) hf
  rw [decode_eq] at hd
  rw [literalStep, if_neg hlt.ne, hword]
  split_ifs at hd with h42 h23 h1 h60
  have hne : ∀ n : Nat, w &&& 0x3F#32 ≠ BitVec.ofNat 32 n → n < 64 → (w &&& 0x3F#32).toNat ≠ n :=
    fun n h _ hn => h (BitVec.eq_of_toNat_eq (by rw [hn, BitVec.toNat_ofNat]; omega))
  simp only [hne 42 h42 (by decide), hne 23 h23 (by decide), hne 1 h1 (by decide), hne 60 h60 (by decide), ↓reduceIte]

/-! ### The pseudocode and the halting move -/

theorem settle_of_not_running {s : State} (h : s.status.state ≠ .running) : settle s = s :=
  if_neg fun hmove => h hmove.1

theorem settle_of_ip_ne {s : State} (h : s.ip ≠ s.program.length) : settle s = s :=
  if_neg fun hmove => h hmove.2

/-- Every way a step can go is one branch of the pseudocode (40_decode_dispatch.md R82). -/
theorem step_eq_settle_literalStep {s : State} (hr : s.status.state = .running) (hip : s.ip ≤ s.program.length) :
    step s = .next (settle (literalStep s)) := by
  rcases step_cases s with ⟨hnr, -⟩ | ⟨-, hN, hs⟩ | ⟨-, hgt, -⟩ | ⟨w, e, -, -, hf, hd, hs⟩ |
    ⟨w, i, -, -, hf, hd, -, hs⟩
  · exact absurd hr hnr
  · rw [hs, literalStep_of_length hN, settle_of_not_running (by simp)]
  · omega
  · rw [hs, literalStep_of_decode_error hf hd, settle_of_not_running (by simp)]
  · rw [hs, exec_eq_literalStep hf hd]
    rfl

theorem step_ip_le {s t : State} (h : step s = .next t) : t.ip ≤ s.ip + 1 := by
  rcases step_next_cases h with ⟨-, hip, -⟩ | ⟨c, rfl⟩ | ⟨_, -, hip, -⟩
  · omega
  · exact Nat.le_succ s.ip
  · omega

/-- Settles O27: the pseudocode followed by the halting move, which does nothing while `ip` stays below `N`. -/
theorem stepIsTheSpecPseudocode : Obligations.StepIsTheSpecPseudocode := by
  unfold Obligations.StepIsTheSpecPseudocode
  intro s hr hip
  have hstep := step_eq_settle_literalStep hr hip
  refine ⟨hstep, fun hlt => ?_⟩
  have hip' : (literalStep s).ip ≤ s.ip + 1 := settle_ip (literalStep s) ▸ step_ip_le hstep
  have hprog : (literalStep s).program = s.program := (settle_program _).symm.trans (step_program hstep)
  rw [hstep, settle_of_ip_ne (by rw [hprog]; omega)]

end Sys2Proof.Machine
end

section
/-! SUPPORT. The stack and memory primitives of 41_stack_memory.md. First what LOAD_CONST and WRITE_MEM do and raise
(R84, R86); then what a completed instruction leaves, from which the two accountings follow: the depth after a run (R87)
is an invariant on the words before `ip`, and what a cell holds after it (R88) is an induction on the stores. -/

namespace Sys2Proof.Machine

/-! ### The primitives -/

/-- Settles O10: a full stack is one at the cap, and `exec` is the meaning at this core's parameters. -/
theorem loadConstPushesItsImmediate : Obligations.LoadConstPushesItsImmediate := by
  unfold Obligations.LoadConstPushesItsImmediate
  obtain ⟨-, -, hdecode, -, -⟩ := opcodeMapIsComplete
  have hfull : ∀ (p : Params) (s : State), p.wellFormed = true →
      (stackFull p s.stack = true ↔ p.stackCap = some s.stack.length) :=
    fun p s hp => stackFull_eq_true_iff (fun _ => Params.two_le_of_wellFormed hp) s.stack
  refine ⟨hdecode, fun b s hroom => ?_, fun p b s hp hcap => ?_, fun p b s hp hroom => ?_, fun b s => rfl,
    fun b => ⟨BitVec.toNat_setWidth_of_le (by decide), b.isLt⟩⟩
  · exact (loadConstWith_eq Config.params b s).trans (if_neg (Bool.eq_false_iff.mp hroom))
  · exact ⟨_, (loadConstWith_eq p b s).trans (if_pos ((hfull p s hp).mpr hcap)), faultEntered_raise ..⟩
  · exact (loadConstWith_eq p b s).trans (if_neg (mt (hfull p s hp).mp hroom))

theorem writeMemWith_of_legal (p : Params) (b : Operand) {s : State} {a v : Word} {rest : List Word}
    (hs : s.stack = a :: v :: rest) (ha : stackAddress a < Config.memSize) :
    writeMemWith p b s = .next { s with
      stack := rest, memory := Memory.write s.memory (stackAddress a) v, ip := s.ip + 1 } := by
  simp only [writeMemWith_eq, hs, if_pos ha]

theorem writeMemWith_of_out_of_range (p : Params) (b : Operand) {s : State} {a v : Word} {rest : List Word}
    (hs : s.stack = a :: v :: rest) (ha : Config.memSize ≤ stackAddress a) :
    writeMemWith p b s = .next (raise p .addressOutOfRange s) := by
  simp only [writeMemWith_eq, hs, if_neg (Nat.not_lt.mpr ha)]

theorem writeMemWith_of_underflow (p : Params) (b : Operand) {s : State} (h : s.stack.length < 2) :
    writeMemWith p b s = .next (raise p .stackUnderflow s) := by
  simp only [writeMemWith, requireDepth, if_pos h]
  rfl

/-- Settles O12: the three ways WRITE_MEM ends, and read after write for the cells. -/
theorem writeMemStoresSecondEntryAtTopEntry : Obligations.WriteMemStoresSecondEntryAtTopEntry := by
  unfold Obligations.WriteMemStoresSecondEntryAtTopEntry
  refine ⟨fun _ => decode_of_low_eq_1, fun b s a v rest hs ha => ⟨writeMemWith_of_legal _ b hs ha, fun c => ?_⟩,
    fun b s h => ⟨_, writeMemWith_of_underflow _ b h, faultEntered_raise ..⟩,
    fun b s a v rest hs ha => ⟨_, writeMemWith_of_out_of_range _ b hs ha, faultEntered_raise ..⟩, by decide⟩
  exact Memory.read_write s.memory a.toNat c v

/-! ### Completed instructions -/

/-- `Completes s i t`: the instruction `i`, executed from `s` without a fault, leaves `t`. -/
inductive Completes (s : State) : Instr → State → Prop where
  | loadConst (b : Operand) :
      Completes s (.loadConst b) { s with stack := immValue b :: s.stack, ip := s.ip + 1 }
  | readMem (b : Operand) :
      Completes s (.readMem b) { s with stack := memRead (immAddress b) s :: s.stack, ip := s.ip + 1 }
  | writeMem (b : Operand) (a v : Word) (rest : List Word) (hs : s.stack = a :: v :: rest)
      (ha : stackAddress a < Config.memSize) :
      Completes s (.writeMem b)
        { s with stack := rest, memory := Memory.write s.memory (stackAddress a) v, ip := s.ip + 1 }
  | bitreverse (b : Operand) (v : Word) (rest : List Word) (hs : s.stack = v :: rest) :
      Completes s (.bitreverse b) { s with stack := bitrev32 v :: rest, ip := s.ip + 1 }

/-- An instruction raises its fault or completes, one branch of its meaning at a time. -/
theorem completes_of_execWith {p : Params} {i : Instr} {s t : State} (h : execWith p i s = .next t)
    (ht : t.status.state ≠ .faulted) : Completes s i t := by
  cases i with
  | loadConst b =>
    simp only [execWith, loadConstWith_eq] at h
    split at h <;> cases h
    · exact absurd rfl ht
    · exact .loadConst b
  | readMem b =>
    simp only [execWith, readMemWith_eq] at h
    split at h
    · split at h <;> cases h
      · exact absurd rfl ht
      · exact .readMem b
    · cases h; exact absurd rfl ht
  | writeMem b =>
    simp only [execWith, writeMemWith_eq] at h
    split at h
    · next hs =>
      split at h <;> cases h
      · next ha => exact .writeMem b _ _ _ hs ha
      · exact absurd rfl ht
    · cases h; exact absurd rfl ht
  | bitreverse b =>
    simp only [execWith, bitreverseWith_eq] at h
    split at h <;> cases h
    · next hs => exact .bitreverse b _ _ hs
    · exact absurd rfl ht

/-! ### Fault-free steps and runs -/

theorem Completes.program {s t : State} {i : Instr} (h : Completes s i t) : t.program = s.program := by
  cases h <;> rfl

theorem Completes.ip {s t : State} {i : Instr} (h : Completes s i t) : t.ip = s.ip + 1 := by
  cases h <;> rfl

theorem Completes.status {s t : State} {i : Instr} (h : Completes s i t) : t.status = s.status := by
  cases h <;> rfl

/-- What a step without a fault leaves: the old state outside Running, the halted one at the end of the program, or
what a completed instruction leaves, with the halting move. -/
theorem step_fault_free_cases {s t : State} (h : step s = .next t) (ht : t.status.state ≠ .faulted) :
    (s.status.state ≠ .running ∧ t = s) ∨
    (s.status.state = .running ∧ s.ip = s.program.length ∧ t = halt s) ∨
    (∃ w i u, s.status.state = .running ∧ fetch s = some w ∧ decode w = .ok i ∧ nextAction s = .execute i ∧
      Completes s i u ∧ t = settle u) := by
  rcases step_cases s with ⟨hr, hs⟩ | ⟨hr, hip, hs⟩ | ⟨-, -, hs⟩ | ⟨_, _, -, -, -, -, hs⟩ |
    ⟨w, i, hr, -, hf, hd, ha, hs⟩
  · cases hs.symm.trans h
    exact .inl ⟨hr, rfl⟩
  · cases hs.symm.trans h
    exact .inr (.inl ⟨hr, hip, rfl⟩)
  · cases hs.symm.trans h
  · cases hs.symm.trans h
    exact absurd rfl ht
  · rw [hs, settleOutcome_eq_next, exec_eq] at h
    obtain ⟨u, hu, rfl⟩ := h
    have hu_fine : u.status.state ≠ .faulted := mt (settle_faulted_iff u).mpr ht
    exact .inr (.inr ⟨w, i, u, hr, hf, hd, ha, completes_of_execWith hu hu_fine, rfl⟩)

/-- A run of `k + 1` steps is a step and then a run of `k`. -/
theorem runSteps_succ_eq_next {k : Nat} {s t : State} (h : runSteps (k + 1) s = .next t) :
    ∃ u, step s = .next u ∧ runSteps k u = .next t := by
  rw [runSteps_succ] at h
  split at h
  · next u hu => exact ⟨u, hu, h⟩
  · cases h
  · cases h

/-- A fault is never left, so a run that ends without one has met none. -/
theorem not_faulted_of_runSteps {k : Nat} {s t : State} (h : runSteps k s = .next t)
    (ht : t.status.state ≠ .faulted) : s.status.state ≠ .faulted := by
  intro hs
  cases (runSteps_of_not_running k (by simp [hs])).symm.trans h
  exact ht hs

/-- What every step without a fault keeps, a run that ends without a fault keeps. -/
theorem runSteps_fault_free_keeps {P : State → Prop}
    (hstep : ∀ s t, P s → step s = .next t → t.status.state ≠ .faulted → P t)
    {k : Nat} {s t : State} (hs : P s) (h : runSteps k s = .next t) (ht : t.status.state ≠ .faulted) : P t := by
  induction k generalizing s with
  | zero => cases h; exact hs
  | succ k ih =>
    obtain ⟨u, hu, hrest⟩ := runSteps_succ_eq_next h
    exact ih (hstep s u hs hu (not_faulted_of_runSteps hrest ht)) hrest

/-! ### The words executed -/

/-- `ip` lies in the program, and a run that has stopped has executed all of it. A core started on no words meets this,
though its status becomes legal (10_state.md R24) only with the halting move. -/
structure InProgram (s : State) : Prop where
  ip_le : s.ip ≤ s.program.length
  ip_of_stopped : s.status.state ≠ .running → s.ip = s.program.length

theorem inProgram_settle {s : State} (hr : s.status.state = .running) (hip : s.ip ≤ s.program.length) :
    InProgram (settle s) := by
  refine ⟨by simpa using hip, fun hstopped => ?_⟩
  by_contra hne
  rw [settle_ip, settle_program] at hne
  rw [settle_of_ip_ne hne] at hstopped
  exact hstopped hr

/-- A step without a fault goes on by one word, as far as there are words (40_decode_dispatch.md R78, R79). -/
theorem step_position {s t : State} (hs : InProgram s) (h : step s = .next t) (ht : t.status.state ≠ .faulted) :
    InProgram t ∧ t.ip = min (s.ip + 1) s.program.length := by
  rcases step_fault_free_cases h ht with ⟨hstopped, rfl⟩ | ⟨-, hip, rfl⟩ | ⟨w, i, u, hr, hf, -, -, hu, rfl⟩
  · exact ⟨hs, by have := hs.ip_of_stopped hstopped; omega⟩
  · exact ⟨⟨hip.le, fun _ => hip⟩, by rw [halt_ip]; omega⟩
  · have hlt : s.ip < s.program.length := (List.getElem?_eq_some_iff.mp hf).1
    have hr' : u.status.state = .running := by rw [hu.status, hr]
    exact ⟨inProgram_settle hr' (by rw [hu.ip, hu.program]; exact hlt), by rw [settle_ip, hu.ip]; omega⟩

/-- After `k` steps without a fault `ip` is `k` further, as far as there are words (40_decode_dispatch.md R80). -/
theorem runSteps_ip {k : Nat} {s t : State} (hs : InProgram s) (h : runSteps k s = .next t)
    (ht : t.status.state ≠ .faulted) : t.ip = min (s.ip + k) s.program.length := by
  induction k generalizing s with
  | zero =>
    cases h
    exact (min_eq_left hs.ip_le).symm
  | succ k ih =>
    obtain ⟨u, hu, hrest⟩ := runSteps_succ_eq_next h
    obtain ⟨hin, hip⟩ := step_position hs hu (not_faulted_of_runSteps hrest ht)
    rw [ih hin hrest, hip, step_program hu]
    omega

/-! ### Stack accounting -/

theorem dispatch_eq_ok {r : Record} {i : Instr} (h : dispatch r = .ok i) : i.record = r := by
  unfold dispatch at h
  split_ifs at h with h42 h23 h1 h60 <;> cases h
  · rw [Instr.record, ← h42]
  · rw [Instr.record, ← h23]
  · rw [Instr.record, ← h1]
  · rw [Instr.record, ← h60]

theorem dispatch_eq_error {r : Record} {e : DecodeError} (h : dispatch r = .error e) :
    r.opcode ≠ 42#6 ∧ r.opcode ≠ 23#6 ∧ r.opcode ≠ 1#6 ∧ r.opcode ≠ 60#6 := by
  unfold dispatch at h
  split_ifs at h with h42 h23 h1 h60
  exact ⟨h42, h23, h1, h60⟩

theorem opcode_of_decode {w : Word} {i : Instr} (h : decode w = .ok i) :
    (decodeRecord w).opcode = i.record.opcode := by
  rw [dispatch_eq_ok h]

/-- The depth of `s` is the one the opcodes before `ip` give (41_stack_memory.md R87). -/
def DepthAccounted (s : State) : Prop :=
  s.stack.length + 2 * countOpcode 1#6 (s.program.take s.ip) =
    countOpcode 42#6 (s.program.take s.ip) + countOpcode 23#6 (s.program.take s.ip)

/-- Executing `w` adds it to the words before `ip`. -/
theorem countOpcode_take_succ (a : Opcode) {program : List Word} {n : Nat} {w : Word} (h : program[n]? = some w) :
    countOpcode a (program.take (n + 1)) =
      countOpcode a (program.take n) + if (decodeRecord w).opcode = a then 1 else 0 := by
  simp [countOpcode, List.take_add_one, h, List.countP_append, List.countP_singleton]

/-- One case per instruction: a push adds 1 to each side, WRITE_MEM pops two entries and counts twice, and BITREVERSE
changes neither side. -/
theorem Completes.depthAccounted {s t : State} {w : Word} {i : Instr} (h : Completes s i t) (hf : fetch s = some w)
    (hd : decode w = .ok i) (hs : DepthAccounted s) : DepthAccounted t := by
  have hop := opcode_of_decode hd
  unfold DepthAccounted at hs ⊢
  rw [h.program, h.ip, countOpcode_take_succ _ hf, countOpcode_take_succ _ hf, countOpcode_take_succ _ hf, hop]
  cases h with
  | loadConst b | readMem b =>
    simp only [Instr.record, List.length_cons, BitVec.reduceEq, ↓reduceIte]
    omega
  | writeMem b a v rest hstack | bitreverse b v rest hstack =>
    rw [hstack] at hs
    simp only [Instr.record, List.length_cons, BitVec.reduceEq, ↓reduceIte] at hs ⊢
    omega

theorem step_depthAccounted {s t : State} (hs : DepthAccounted s) (h : step s = .next t)
    (ht : t.status.state ≠ .faulted) : DepthAccounted t := by
  rcases step_fault_free_cases h ht with ⟨-, rfl⟩ | ⟨-, -, rfl⟩ | ⟨w, i, u, -, hf, hd, -, hu, rfl⟩
  · exact hs
  · exact hs
  · have hacc := hu.depthAccounted hf hd hs
    simpa only [DepthAccounted, settle_stack, settle_program, settle_ip] using hacc

/-! ### Stack underflow -/

/-- The depth an instruction asks for before it pops (41_stack_memory.md R86, 42_alu_bitreverse.md R103). -/
def depthNeeded : Instr → Nat
  | .loadConst _ => 0
  | .readMem _ => 0
  | .writeMem _ => 2
  | .bitreverse _ => 1

theorem not_faultsWith_raise (p : Params) {c d : Cause} (s : State) (h : d ≠ c) :
    ¬ faultsWith c s (.next (raise p d s)) := by
  rintro ⟨t, ht, hstatus, -⟩
  cases ht
  exact h (by simpa using hstatus)

theorem Completes.not_faultsWith {s t : State} {i : Instr} (h : Completes s i t) (hr : s.status.state = .running)
    (c : Cause) : ¬ faultsWith c s (.next t) := by
  rintro ⟨u, hu, hstatus, -⟩
  cases hu
  rw [← h.status, hstatus] at hr
  cases hr

/-- A running core's instruction underflows exactly when the depth is below what it asks for (10_state.md R21). -/
theorem execWith_underflows_iff (p : Params) (i : Instr) {s : State} (hr : s.status.state = .running) :
    faultsWith .stackUnderflow s (execWith p i s) ↔ s.stack.length < depthNeeded i := by
  cases i with
  | loadConst b =>
    refine iff_of_false ?_ (Nat.not_lt_zero _)
    rw [execWith, loadConstWith_eq]
    split
    · exact not_faultsWith_raise p s (by decide)
    · exact (Completes.loadConst b).not_faultsWith hr _
  | readMem b =>
    refine iff_of_false ?_ (Nat.not_lt_zero _)
    rw [execWith, readMemWith_eq]
    split
    · split
      · exact not_faultsWith_raise p s (by decide)
      · exact (Completes.readMem b).not_faultsWith hr _
    · exact not_faultsWith_raise p s (by decide)
  | writeMem b =>
    by_cases hdepth : s.stack.length < 2
    · exact iff_of_true ⟨_, writeMemWith_of_underflow p b hdepth, faultEntered_raise ..⟩ hdepth
    · refine iff_of_false ?_ hdepth
      match hs : s.stack, hdepth with
      | [], hdepth | [_], hdepth => simp at hdepth
      | a :: v :: rest, _ =>
        by_cases ha : stackAddress a < Config.memSize
        · rw [execWith, writeMemWith_of_legal p b hs ha]
          exact (Completes.writeMem b a v rest hs ha).not_faultsWith hr _
        · rw [execWith, writeMemWith_of_out_of_range p b hs (Nat.not_lt.mp ha)]
          exact not_faultsWith_raise p s (by decide)
  | bitreverse b =>
    rw [execWith, bitreverseWith_eq]
    match hs : s.stack with
    | [] => exact iff_of_true ⟨_, rfl, faultEntered_raise ..⟩ Nat.zero_lt_one
    | v :: rest =>
      exact iff_of_false ((Completes.bitreverse b v rest hs).not_faultsWith hr _) (by simp [depthNeeded])

/-- The halting move neither makes nor hides the entry into a fault. -/
theorem faultsWith_settleOutcome_iff (c : Cause) (s : State) (o : Host.Outcome State Fault Refusal) :
    faultsWith c s (settleOutcome o) ↔ faultsWith c s o := by
  constructor
  · rintro ⟨t, ht, hstatus, hkept⟩
    obtain ⟨u, rfl, rfl⟩ := settleOutcome_eq_next.mp ht
    have hu : u.status.state = .faulted := (settle_faulted_iff u).mp (by rw [hstatus])
    rw [settle_of_not_running (by simp [hu])] at hstatus hkept
    exact ⟨u, rfl, hstatus, hkept⟩
  · rintro ⟨u, rfl, hu⟩
    refine ⟨u, congrArg _ (settle_of_not_running ?_), hu⟩
    simp [hu.1]

/-- The next word of a running core underflows exactly when it is WRITE_MEM at depth below 2 or BITREVERSE at depth
below 1: no value and no address counts (41_stack_memory.md R87). -/
theorem step_underflows_iff {s : State} (hr : s.status.state = .running) :
    faultsWith .stackUnderflow s (step s) ↔
      (nextOpcode s = some 1#6 ∧ s.ip < s.program.length ∧ s.stack.length < 2) ∨
      (nextOpcode s = some 60#6 ∧ s.ip < s.program.length ∧ s.stack.length < 1) := by
  rcases step_cases s with ⟨hnr, -⟩ | ⟨-, hip, hs⟩ | ⟨-, hip, hs⟩ | ⟨w, e, -, -, hf, hd, hs⟩ |
    ⟨w, i, -, hlt, hf, hd, -, hs⟩
  · exact absurd hr hnr
  · rw [hs]
    refine iff_of_false ?_ (by omega)
    rintro ⟨t, ht, hstatus, -⟩
    cases ht
    cases hstatus
  · rw [hs]
    exact iff_of_false (by rintro ⟨t, ht, -⟩; cases ht) (by omega)
  · obtain ⟨-, -, h1, h60⟩ := dispatch_eq_error hd
    rw [hs]
    exact iff_of_false (not_faultsWith_raise _ s (by decide)) (by simp [nextOpcode, hf, h1, h60])
  · rw [hs, faultsWith_settleOutcome_iff, exec_eq, execWith_underflows_iff _ _ hr, nextOpcode, hf, Option.map_some,
      opcode_of_decode hd]
    cases i <;> simp [Instr.record, depthNeeded, hlt]

/-- Settles O43: the depth is accounted for at the start and by every step without a fault, the words before `ip` are
the first `k`, and the next word and the depth decide whether its step underflows. -/
theorem depthFollowsFromTheOpcodesExecuted : Obligations.DepthFollowsFromTheOpcodesExecuted := by
  unfold Obligations.DepthFollowsFromTheOpcodesExecuted
  rintro k s t ⟨hstatus, hip, hstack, -⟩ h ht
  have hin : InProgram s := ⟨by omega, fun hstopped => absurd (congrArg Status.state hstatus) hstopped⟩
  have hwords : t.program.take t.ip = s.program.take k := by
    rw [noRunChangesTheProgram k s t h, runSteps_ip hin h ht, hip, Nat.zero_add, ← List.take_eq_take_min]
  have hdepth : DepthAccounted t :=
    runSteps_fault_free_keeps (fun _ _ => step_depthAccounted) (by simp [DepthAccounted, hip, hstack, countOpcode]) h ht
  rw [DepthAccounted, hwords] at hdepth
  exact ⟨hdepth, step_underflows_iff⟩

/-! ### Memory accounting -/

theorem storeOf_eq_none {s : State} (h : ∀ b, nextAction s ≠ .execute (.writeMem b)) : storeOf s = none := by
  unfold storeOf
  split
  · next b _ _ _ hb _ => exact absurd hb (h b)
  · rfl

theorem storeOf_writeMem {s : State} {b : Operand} {a v : Word} {rest : List Word}
    (h : nextAction s = .execute (.writeMem b)) (hs : s.stack = a :: v :: rest)
    (ha : stackAddress a < Config.memSize) : storeOf s = some (stackAddress a, v) := by
  simp only [storeOf, h, hs, if_pos ha]

/-- The value a list of stores, oldest first, leaves in cell `a`, which held `v` before them. -/
def cellAfter (a : Nat) (v : Word) (stores : List (Nat × Word)) : Word :=
  (stores.reverse.lookup a).getD v

theorem cellAfter_append (a : Nat) (v : Word) (older newer : List (Nat × Word)) :
    cellAfter a v (older ++ newer) = cellAfter a (cellAfter a v older) newer := by
  simp only [cellAfter, List.reverse_append, List.lookup_append]
  cases List.lookup a newer.reverse <;> rfl

theorem cellAfter_singleton (a b : Nat) (u v : Word) : cellAfter a u [(b, v)] = if a = b then v else u := by
  by_cases h : a = b
  · simp [cellAfter, h]
  · simp [cellAfter, List.lookup_cons, beq_eq_false_iff_ne.mpr h, h]

/-- A completed instruction changes the cells by the store the model counts for it, and by nothing else. -/
theorem Completes.memRead_eq {s t : State} {i : Instr} (h : Completes s i t) (hact : nextAction s = .execute i)
    (a : Nat) : memRead a t = cellAfter a (memRead a s) (storeOf s).toList := by
  cases h with
  | writeMem b w v rest hs hw =>
    rw [storeOf_writeMem hact hs hw, Option.toList_some, cellAfter_singleton]
    exact Memory.read_write s.memory (stackAddress w) a v
  | loadConst b | readMem b | bitreverse b v rest hs =>
    rw [storeOf_eq_none (by simp [hact])]
    rfl

/-- So does every step without a fault (10_state.md R22). -/
theorem step_memRead {s t : State} (h : step s = .next t) (ht : t.status.state ≠ .faulted) (a : Nat) :
    memRead a t = cellAfter a (memRead a s) (storeOf s).toList := by
  rcases step_fault_free_cases h ht with ⟨hr, rfl⟩ | ⟨hr, hip, rfl⟩ | ⟨w, i, u, -, -, -, hact, hu, rfl⟩
  · rw [storeOf_eq_none (by simp [nextAction_of_not_running hr])]
    rfl
  · rw [storeOf_eq_none (by simp [nextAction_running hr, hip])]
    rfl
  · rw [← hu.memRead_eq hact a, memRead, settle_memory]
    rfl

theorem storesOf_succ {s t : State} (k : Nat) (h : step s = .next t) :
    storesOf (k + 1) s = (storeOf s).toList ++ storesOf k t := by
  rw [storesOf, h]

/-- From any state a run without a fault leaves in each cell what its stores make of it. -/
theorem runSteps_memRead {k : Nat} {s t : State} (h : runSteps k s = .next t) (ht : t.status.state ≠ .faulted)
    (a : Nat) : memRead a t = cellAfter a (memRead a s) (storesOf k s) := by
  induction k generalizing s with
  | zero => cases h; rfl
  | succ k ih =>
    obtain ⟨u, hu, hrest⟩ := runSteps_succ_eq_next h
    rw [storesOf_succ k hu, cellAfter_append, ← step_memRead hu (not_faulted_of_runSteps hrest ht), ih hrest]

/-- Settles O44: a started core holds 0 in every cell, and the last store to a cell is what its stores leave in it. -/
theorem everyCellHoldsItsLastStore : Obligations.EveryCellHoldsItsLastStore := by
  unfold Obligations.EveryCellHoldsItsLastStore
  rintro k s t ⟨-, -, -, hmem⟩ h ht a
  rw [runSteps_memRead h ht, memRead, hmem]
  rfl

end Sys2Proof.Machine
end

section
/-! SUPPORT. Bit reversal and the instruction that uses it (42_alu_bitreverse.md R102 to R105): the bits of `bitrev32`,
from which it is its own inverse, and the two ways BITREVERSE ends. -/

namespace Sys2Proof.Machine

/-! ### The reversal -/

theorem bitrev32_getLsbD (v : Word) {j : Nat} (hj : j < 32) : (bitrev32 v).getLsbD j = v.getLsbD (31 - j) := by
  rw [bitrev32, bitrevTerms_getLsbD v 32 j le_rfl]
  simp [hj]

/-- Settles O14: bit `31 - i` of the reversal is bit `31 - (31 - i)` of the word. -/
theorem bitrevMovesBitIToBit31MinusI : Obligations.BitrevMovesBitIToBit31MinusI := by
  unfold Obligations.BitrevMovesBitIToBit31MinusI
  intro v i hi
  rw [bitrev32_getLsbD v (by omega), Nat.sub_sub_self (Nat.le_of_lt_succ hi)]

/-- Bit `j` goes to bit `31 - j` and back. -/
@[simp] theorem bitrev32_bitrev32 (v : Word) : bitrev32 (bitrev32 v) = v := by
  apply BitVec.eq_of_getLsbD_eq
  intro j hj
  rw [bitrev32_getLsbD _ hj, bitrevMovesBitIToBit31MinusI v j hj]

/-! ### The instruction -/

theorem bitreverseWith_of_cons (p : Params) (b : Operand) {s : State} {v : Word} {rest : List Word}
    (hs : s.stack = v :: rest) :
    bitreverseWith p b s = .next { s with stack := bitrev32 v :: rest, ip := s.ip + 1 } := by
  simp only [bitreverseWith_eq, hs]

theorem bitreverseWith_of_nil (p : Params) (b : Operand) {s : State} (hs : s.stack = []) :
    bitreverseWith p b s = .next (raise p .stackUnderflow s) := by
  simp only [bitreverseWith_eq, hs]

theorem exec_bitreverse_of_cons (b : Operand) {s : State} {v : Word} {rest : List Word} (hs : s.stack = v :: rest) :
    exec (.bitreverse b) s = .next { s with stack := bitrev32 v :: rest, ip := s.ip + 1 } :=
  bitreverseWith_of_cons Config.params b hs

/-- Settles O15: the first BITREVERSE leaves a top entry for the second, and the reversals cancel. -/
theorem bitreverseTwiceRestoresTheStack : Obligations.BitreverseTwiceRestoresTheStack := by
  unfold Obligations.BitreverseTwiceRestoresTheStack
  refine ⟨bitrev32_bitrev32, fun b b' s hne => ?_⟩
  obtain ⟨v, rest, hs⟩ := List.exists_cons_of_ne_nil hne
  refine ⟨_, _, exec_bitreverse_of_cons b hs, exec_bitreverse_of_cons b' rfl, ?_⟩
  rw [bitrev32_bitrev32, hs]

/-- Entry into a fault does not move `ip` (60_exceptions.md R110). -/
theorem not_faultsWith_of_ip_ne {s t : State} (c : Cause) (h : t.ip ≠ s.ip) : ¬ faultsWith c s (.next t) := by
  rintro ⟨u, hu, -, hip, -⟩
  cases hu
  exact h hip

/-- An empty stack raises another fault, and with an entry on the stack `ip` advances, whatever the status and the
depth are (42_alu_bitreverse.md R103, R107). -/
theorem bitreverseWith_not_stackOverflow (p : Params) (b : Operand) (s : State) :
    ¬ faultsWith .stackOverflow s (bitreverseWith p b s) := by
  match hs : s.stack with
  | [] =>
    rw [bitreverseWith_of_nil p b hs]
    exact not_faultsWith_raise p s (by decide)
  | v :: rest =>
    rw [bitreverseWith_of_cons p b hs]
    exact not_faultsWith_of_ip_ne _ (Nat.succ_ne_self s.ip)

/-- Settles O13: the two ways BITREVERSE ends, neither of them an overflow; the fixed words are evaluated. -/
theorem bitreverseReversesTheTopEntry : Obligations.BitreverseReversesTheTopEntry := by
  unfold Obligations.BitreverseReversesTheTopEntry
  have hone : bitrev32 1#32 = 0x80000000#32 := by decide
  refine ⟨fun _ => decode_of_low_eq_60, fun b _ _ _ => exec_bitreverse_of_cons b, bitreverseWith_not_stackOverflow,
    fun b s hs => ⟨_, bitreverseWith_of_nil Config.params b hs, faultEntered_raise ..⟩,
    by decide, by decide, by decide, hone, ?_⟩
  rw [← hone, bitrev32_bitrev32]

end Sys2Proof.Machine
end

section
/-! SUPPORT. The faults of 60_exceptions.md: entry into a fault by a step and by a load (R110), the cases in which each
instruction raises each of its faults (R109), and what the host is answered outside Halted (R112). -/

namespace Sys2Proof.Machine

/-! ### Fault entry -/

/-- The only way from Running to Faulted is the entry into an execution fault: the halting move and a completed
instruction leave no fault. -/
theorem step_into_faulted {s t : State} (hr : s.status.state = .running) (h : step s = .next t)
    (ht : t.status.state = .faulted) : ∃ c, c.isLoad = false ∧ t = raise Config.params c s := by
  rcases stepWith_next_cases (step_eq s ▸ h) with ⟨hnr, -⟩ | ⟨-, -, rfl⟩ | ⟨-, -, hraise⟩ |
    ⟨-, -, u, rfl, -, -, hstatus⟩
  · exact absurd hr hnr
  · cases ht
  · exact hraise
  · rw [settle_faulted_iff, hstatus, hr] at ht
    cases ht

/-- A load that ends Faulted has failed one of its two length checks. -/
theorem loadProgram_into_faulted {p : Params} {bytes : List Byte} {s : State}
    (h : (loadProgram p bytes s).status.state = .faulted) :
    ∃ c, c.isLoad = true ∧ loadProgram p bytes s = raiseLoad c s := by
  rcases loadProgram_cases p bytes s with hload | hload
  · exact hload
  · rw [hload, settle_faulted_iff] at h
    cases h

/-- Settles O28: a step and a load enter Faulted by `raise` and `raiseLoad` alone, and a Faulted core takes no step. -/
theorem faultEntryRecordsCauseAndIndexAndStops : Obligations.FaultEntryRecordsCauseAndIndexAndStops := by
  unfold Obligations.FaultEntryRecordsCauseAndIndexAndStops
  refine ⟨fun k s t hr h ht => ?_, fun p bytes s t hidle hload ht => ?_⟩
  · obtain ⟨c, hc, rfl⟩ := step_into_faulted hr h ht
    refine ⟨⟨c, hc, faultEntered_raise ..⟩, fun u hu => ?_⟩
    have hstopped : (raise Config.params c s).status.state ≠ .running := nofun
    cases (runSteps_of_not_running k hstopped).symm.trans hu
    exact ⟨rfl, rfl, by simp [nextAction_of_not_running hstopped]⟩
  · rw [hostOpWith_load_of_idle p bytes hidle] at hload
    subst hload
    exact loadProgram_into_faulted ht

/-! ### Which instruction raises which fault -/

theorem faultsWith_raise_iff (p : Params) (c d : Cause) (s : State) :
    faultsWith c s (.next (raise p d s)) ↔ c = d := by
  constructor
  · intro h
    by_contra hne
    exact not_faultsWith_raise p s (Ne.symm hne) h
  · rintro rfl
    exact ⟨_, rfl, faultEntered_raise ..⟩

/-- `Raises p s i c`: the instruction `i` finds in `s` the condition of its fault `c`, and none that is checked before
it (60_exceptions.md R109, R113). -/
inductive Raises (p : Params) (s : State) : Instr → Cause → Prop where
  | loadConst_full (b : Operand) (hfull : stackFull p s.stack = true) : Raises p s (.loadConst b) .stackOverflow
  | readMem_range (b : Operand) (ha : Config.memSize ≤ immAddress b) : Raises p s (.readMem b) .addressOutOfRange
  | readMem_full (b : Operand) (ha : immAddress b < Config.memSize) (hfull : stackFull p s.stack = true) :
      Raises p s (.readMem b) .stackOverflow
  | writeMem_depth (b : Operand) (hdepth : s.stack.length < 2) : Raises p s (.writeMem b) .stackUnderflow
  | writeMem_range (b : Operand) (a v : Word) (rest : List Word) (hs : s.stack = a :: v :: rest)
      (ha : Config.memSize ≤ stackAddress a) : Raises p s (.writeMem b) .addressOutOfRange
  | bitreverse_depth (b : Operand) (hs : s.stack = []) : Raises p s (.bitreverse b) .stackUnderflow

theorem Raises.execWith_eq {p : Params} {s : State} {i : Instr} {c : Cause} (h : Raises p s i c) :
    execWith p i s = .next (raise p c s) := by
  cases h with
  | loadConst_full b hfull => exact (loadConstWith_eq p b s).trans (if_pos hfull)
  | readMem_range b ha => exact (readMemWith_eq p b s).trans (if_neg (Nat.not_lt.mpr ha))
  | readMem_full b ha hfull => exact (readMemWith_eq p b s).trans ((if_pos ha).trans (if_pos hfull))
  | writeMem_depth b hdepth => exact writeMemWith_of_underflow p b hdepth
  | writeMem_range b a v rest hs ha => exact writeMemWith_of_out_of_range p b hs ha
  | bitreverse_depth b hs => exact bitreverseWith_of_nil p b hs

/-- Every instruction finds the condition of a fault, or completes. -/
theorem raises_or_completes (p : Params) (i : Instr) (s : State) :
    (∃ c, Raises p s i c) ∨ ∃ t, execWith p i s = .next t ∧ Completes s i t := by
  cases i with
  | loadConst b =>
    by_cases hfull : stackFull p s.stack = true
    · exact .inl ⟨_, .loadConst_full b hfull⟩
    · exact .inr ⟨_, (loadConstWith_eq p b s).trans (if_neg hfull), .loadConst b⟩
  | readMem b =>
    by_cases ha : immAddress b < Config.memSize
    · by_cases hfull : stackFull p s.stack = true
      · exact .inl ⟨_, .readMem_full b ha hfull⟩
      · exact .inr ⟨_, (readMemWith_eq p b s).trans ((if_pos ha).trans (if_neg hfull)), .readMem b⟩
    · exact .inl ⟨_, .readMem_range b (Nat.not_lt.mp ha)⟩
  | writeMem b =>
    match hs : s.stack with
    | [] | [_] => exact .inl ⟨_, .writeMem_depth b (by simp [hs])⟩
    | a :: v :: rest =>
      by_cases ha : stackAddress a < Config.memSize
      · exact .inr ⟨_, writeMemWith_of_legal p b hs ha, .writeMem b a v rest hs ha⟩
      · exact .inl ⟨_, .writeMem_range b a v rest hs (Nat.not_lt.mp ha)⟩
  | bitreverse b =>
    match hs : s.stack with
    | [] => exact .inl ⟨_, .bitreverse_depth b hs⟩
    | v :: rest => exact .inr ⟨_, bitreverseWith_of_cons p b hs, .bitreverse b v rest hs⟩

/-- Whatever the status is, a completed instruction has advanced `ip` and so has entered no fault. -/
theorem faultsWith_execWith_iff {p : Params} {s : State} {i : Instr} {c : Cause} :
    faultsWith c s (execWith p i s) ↔ Raises p s i c := by
  constructor
  · intro h
    rcases raises_or_completes p i s with ⟨d, hd⟩ | ⟨t, ht, hcompletes⟩
    · rw [hd.execWith_eq, faultsWith_raise_iff] at h
      rwa [h]
    · rw [ht] at h
      exact absurd h (not_faultsWith_of_ip_ne c (hcompletes.ip ▸ Nat.succ_ne_self s.ip))
  · intro h
    rw [h.execWith_eq, faultsWith_raise_iff]

/-- A running core, as reset leaves it but for the given stack, whose one instruction is `i`. -/
def aboutToExecute (i : Instr) (stack : List Word) : State :=
  withWord { State.reset with stack := stack } (encode i)

/-- The least finite `STACK_CAP` of 00_scope.md R6. -/
def leastCap : Params := { stackCap := some 2, progMax := none }

theorem assigned_record (i : Instr) : i.record.assigned = true := by
  cases i <;> rfl

/-- A running core raises UnknownOpcode, and nothing else, at a word whose opcode is not assigned. -/
theorem step_faultsWith_iff_of_not_assigned {s : State} {w : Word} (c : Cause) (hr : s.status.state = .running)
    (hf : fetch s = some w) (hw : (decodeRecord w).assigned = false) :
    faultsWith c s (step s) ↔ c = .unknownOpcode := by
  match hd : decode w with
  | .ok i =>
    rw [← dispatch_eq_ok hd, assigned_record] at hw
    cases hw
  | .error e => rw [step_of_decode_error hr hf hd, faultsWith_raise_iff]

/-- Settles O29: the fault conditions of each instruction lie in the rows of its mnemonic, and one state and operand
for each row meets its condition. -/
theorem eachInstructionRaisesExactlyItsFaults : Obligations.EachInstructionRaisesExactlyItsFaults := by
  unfold Obligations.EachInstructionRaisesExactlyItsFaults
  refine ⟨fun name c => ⟨?_, fun h => ?_⟩, fun s w c => step_faultsWith_iff_of_not_assigned c, exec_eq⟩
  · rintro ⟨p, i, s, rfl, -, h⟩
    cases faultsWith_execWith_iff.mp h <;> simp [Instr.mnemonic]
  · simp only [faultsWith_execWith_iff]
    simp only [List.mem_cons, Prod.mk.injEq, List.not_mem_nil, or_false] at h
    rcases h with ⟨rfl, rfl⟩ | ⟨rfl, rfl⟩ | ⟨rfl, rfl⟩ | ⟨rfl, rfl⟩ | ⟨rfl, rfl⟩ | ⟨rfl, rfl⟩
    · exact ⟨leastCap, _, aboutToExecute (.loadConst 0) [0, 0], rfl, rfl, .loadConst_full 0 rfl⟩
    · exact ⟨leastCap, _, aboutToExecute (.readMem 1024) [], rfl, rfl, .readMem_range 1024 (by decide)⟩
    · exact ⟨leastCap, _, aboutToExecute (.readMem 0) [0, 0], rfl, rfl, .readMem_full 0 (by decide) rfl⟩
    · exact ⟨leastCap, _, aboutToExecute (.writeMem 0) [], rfl, rfl, .writeMem_depth 0 (by decide)⟩
    · exact ⟨leastCap, _, aboutToExecute (.writeMem 0) [1024, 0], rfl, rfl,
        .writeMem_range 0 1024 0 [] rfl (by decide)⟩
    · exact ⟨leastCap, _, aboutToExecute (.bitreverse 0) [], rfl, rfl, .bitreverse_depth 0 rfl⟩

/-! ### What the host is answered outside Halted -/

/-- The answer of each host operation outside Halted, read off the status record alone. -/
def replyOutsideHalted (op : HostOp) (r : Status) : HostReply :=
  match op with
  | .reset => .accepted
  | .load _ => if r.state = .idle then .accepted else .refused
  | .readStatus => .status r
  | .dump _ _ => .refused
  | .readStack => .refused

theorem hostOp_reply_of_not_halted (op : HostOp) {s : State} (h : s.status.state ≠ .halted) :
    (hostOp op s).1 = replyOutsideHalted op s.status := by
  cases op with
  | reset => rfl
  | load bytes =>
    simp only [hostOp, hostOpWith, replyOutsideHalted]
    split <;> rfl
  | readStatus => rfl
  | dump start stop => rw [hostOp_dump_of_not_halted start stop h]; rfl
  | readStack => exact congrArg Prod.fst (if_neg h)

/-- Settles O31: outside Halted every answer is a function of the status record, which the replacement keeps. -/
theorem hostLearnsNothingOfDataOutsideHalted : Obligations.HostLearnsNothingOfDataOutsideHalted := by
  unfold Obligations.HostLearnsNothingOfDataOutsideHalted
  intro op s stack memory h
  have hreply : ∀ op, (hostOp op s).1 = replyOutsideHalted op s.status := fun op => hostOp_reply_of_not_halted op h
  refine ⟨?_, fun start stop => hreply (.dump start stop), hreply .readStack, hreply .readStatus⟩
  rw [hreply op]
  exact hostOp_reply_of_not_halted op (s := { s with stack := stack, memory := memory }) h

end Sys2Proof.Machine
end

section
/-! SUPPORT. Reset and the end of a run (70_reset_and_hazards.md R128, R129): what Reset leaves, and that an ended core
is moved by no step and by no host operation but Reset. -/

namespace Sys2Proof.Machine

/-! ### Reset -/

theorem hostOp_reset (s : State) : hostOp .reset s = (.accepted, hostReset s) := rfl

/-- The state after reset is one the host's Reset leaves. -/
theorem hostReset_reset : hostReset State.reset = State.reset := rfl

@[simp] theorem memRead_hostReset (a : Nat) (s : State) : memRead a (hostReset s) = 0#32 :=
  Memory.read_nil a

/-- Settles O32: the state after reset and the state Reset leaves are both of the form `hostReset u`, whose fields do
not depend on `u`. -/
theorem resetGivesEveryStateItsValue : Obligations.ResetGivesEveryStateItsValue := by
  unfold Obligations.ResetGivesEveryStateItsValue
  refine ⟨fun s t ht => ?_, fun s => congrArg Prod.fst (hostOp_reset s)⟩
  obtain ⟨u, rfl⟩ : ∃ u, t = hostReset u := by
    rcases ht with rfl | rfl
    · exact ⟨State.reset, hostReset_reset.symm⟩
    · exact ⟨s, rfl⟩
  exact ⟨hostReset_ip u, hostReset_stack u, fun a _ => memRead_hostReset a u, hostReset_program u, hostReset_status u⟩

/-! ### Ended runs -/

theorem ended.not_running {s : State} (h : ended s) : s.status.state ≠ .running := by
  rcases h with h | h <;> simp [h]

theorem ended.not_idle {s : State} (h : ended s) : s.status.state ≠ .idle := by
  rcases h with h | h <;> simp [h]

/-- Outside Idle the host writes no state but by Reset: Load is refused, and the rest only read
(70_reset_and_hazards.md R132). -/
theorem hostOp_state_of_not_idle {op : HostOp} {s : State} (hop : op ≠ .reset) (h : s.status.state ≠ .idle) :
    (hostOp op s).2 = s := by
  cases op with
  | reset => exact absurd rfl hop
  | load bytes => exact congrArg Prod.snd (if_neg h)
  | readStatus => rfl
  | dump start stop => exact hostOp_dump_state start stop s
  | readStack =>
    simp only [hostOp, hostOpWith]
    split <;> rfl

/-- An ended core is a fixed point of the step and of every host operation but Reset. -/
theorem ended.eq_of_step_or_hostOp {s t : State} (h : ended s)
    (ht : step s = .next t ∨ ∃ op, op ≠ .reset ∧ t = (hostOp op s).2) : t = s := by
  rcases ht with hstep | ⟨op, hop, rfl⟩
  · cases (step_of_not_running h.not_running).symm.trans hstep
    rfl
  · exact hostOp_state_of_not_idle hop h.not_idle

/-- Settles O30: an ended core keeps its whole state, in which nothing is executed, until Reset puts it back to Idle. -/
theorem onlyResetLeavesAnEndedRun : Obligations.OnlyResetLeavesAnEndedRun := by
  unfold Obligations.OnlyResetLeavesAnEndedRun
  refine ⟨fun s t hended ht => ?_, fun s t ht => ?_⟩
  · rw [hended.eq_of_step_or_hostOp ht]
    exact ⟨hended, rfl, by simp [nextAction_of_not_running hended.not_running]⟩
  · subst ht
    exact ⟨hostReset_status s, hostReset_program s, hostReset_stack s, fun a => memRead_hostReset a s⟩

end Sys2Proof.Machine
end

section
/-! SUPPORT. Decode and encode of instructions (30_encoding.md R51 to R55): what the record round trip says of the four
instructions, on words and on the bytes of a file. -/

namespace Sys2Proof

theorem dispatch_record (i : Instr) : dispatch i.record = .ok i := by
  cases i <;> rfl

theorem decode_encode (i : Instr) : decode (encode i) = .ok i := by
  rw [decode, encode, decodeRecord_encodeRecord, dispatch_record]

theorem encode_of_decode {w : Word} {i : Instr} (h : decode w = .ok i) : encode i = w := by
  rw [encode, Machine.dispatch_eq_ok h, encodeRecord_decodeRecord]

/-- The decoder reads a word back from its four bytes and leaves the bytes after it. -/
theorem decodeBytes_bytesOfWord_append {w : Word} {i : Instr} (h : decode w = .ok i) (rest : List Byte) :
    decodeBytes (bytesOfWord w ++ rest) = .ok (i, rest) := by
  simp only [bytesOfWord, List.cons_append, List.nil_append, decodeBytes, wordOfBytes_extract, h]

/-- Settles O3: an instruction is what its record is dispatched to, and the record survives the packing into a word. -/
theorem decodeInvertsEncodeOnAllInstructions : Obligations.DecodeInvertsEncodeOnAllInstructions := by
  unfold Obligations.DecodeInvertsEncodeOnAllInstructions
  exact ⟨decode_encode, fun i => decodeBytes_bytesOfWord_append (decode_encode i), fun _ _ => encode_of_decode⟩

/-- Settles O8: the first six words are the encodings of their instructions; the last two match no assigned opcode. -/
theorem specWordsDecodeToTheirInstructions : Obligations.SpecWordsDecodeToTheirInstructions := by
  unfold Obligations.SpecWordsDecodeToTheirInstructions
  exact ⟨decode_encode (.loadConst 5#26), decode_encode (.loadConst 0x3FFFFFF#26), decode_encode (.readMem 1023#26),
    decode_encode (.writeMem 0#26), decode_encode (.writeMem 0x3FFFFFF#26), decode_encode (.bitreverse 0#26), rfl, rfl⟩

end Sys2Proof
end

section
/-! SUPPORT. The canonical form of the data memory determines it by what it reads (20_memory.md R30, R35). -/

namespace Sys2Proof.Machine

/-- A value other than 0 is read from a listed pair. -/
theorem Memory.mem_of_read_ne_zero {m : Memory} {a : Nat} (h : Memory.read m a ≠ 0#32) :
    (a, Memory.read m a) ∈ m := by
  induction m with
  | nil => exact absurd (Memory.read_nil a) h
  | cons c rest ih =>
    obtain ⟨k, w⟩ := c
    simp only [Memory.read] at h ⊢
    split
    · next heq => simp [heq]
    · next hne => exact List.mem_cons_of_mem _ (ih (by rwa [if_neg hne] at h))

/-- With indexes strictly rising no later listing hides behind an earlier one. -/
theorem Memory.read_of_mem {m : Memory} {a : Nat} {v : Word} (hs : m.Pairwise (fun x y => x.1 < y.1))
    (h : (a, v) ∈ m) : Memory.read m a = v := by
  induction m with
  | nil => cases h
  | cons c rest ih =>
    obtain ⟨hk, hrest⟩ := List.pairwise_cons.mp hs
    rcases List.mem_cons.mp h with rfl | h
    · simp [Memory.read]
    · have hlt : c.1 < a := hk (a, v) h
      simp only [Memory.read, if_neg hlt.ne', ih hrest h]

theorem Memory.mem_iff_read {m : Memory} (hm : Memory.wf m = true) (a : Nat) (v : Word) :
    (a, v) ∈ m ↔ Memory.read m a = v ∧ v ≠ 0#32 := by
  obtain ⟨hsorted, hlisted⟩ := (Memory.wf_iff m).mp hm
  constructor
  · exact fun h => ⟨Memory.read_of_mem hsorted h, (hlisted _ h).2⟩
  · rintro ⟨rfl, hv⟩
    exact Memory.mem_of_read_ne_zero hv

/-- Settles O20: memories that read the same list the same pairs, and sorted lists of the same pairs are equal. -/
theorem canonicalMemoriesAreEqualWhenTheyReadEqual : Obligations.CanonicalMemoriesAreEqualWhenTheyReadEqual := by
  unfold Obligations.CanonicalMemoriesAreEqualWhenTheyReadEqual
  intro m m' hm hm' hread
  have hirrefl : Std.Irrefl (fun x y : Nat × Word => x.1 < y.1) := ⟨fun x => Nat.lt_irrefl x.1⟩
  have hasymm : Std.Antisymm (fun x y : Nat × Word => x.1 < y.1) := ⟨fun x y h h' => absurd h' (Nat.lt_asymm h)⟩
  refine ((Memory.wf_iff m).mp hm).1.eq_of_mem_iff ((Memory.wf_iff m').mp hm').1 fun ⟨a, v⟩ => ?_
  rw [Memory.mem_iff_read hm, Memory.mem_iff_read hm', hread a]

end Sys2Proof.Machine
end

section
/-! SUPPORT. The parametric machine and this core's instructions: the parameters (00_scope.md R6), the step that runs the
decoded instruction (40_decode_dispatch.md R73 to R79), and what a completed instruction leaves unchanged. -/

namespace Sys2Proof.Machine

/-! ### This core -/

theorem runSteps_eq (k : Nat) (s : State) : runSteps k s = runStepsWith Config.params k s := by
  induction k generalizing s with
  | zero => rfl
  | succ k ih =>
    rw [runSteps_succ, runStepsWith_succ, step_eq]
    cases stepWith Config.params s with
    | next t => exact ih t
    | fault r => rfl
    | refused r => rfl

/-- Settles O47: the instructions and the step agree, and with the step every run. -/
theorem thisCoreIsTheParametricMachineAtItsParameters :
    Obligations.ThisCoreIsTheParametricMachineAtItsParameters := by
  unfold Obligations.ThisCoreIsTheParametricMachineAtItsParameters
  exact ⟨exec_eq, fun s => ⟨rfl, step_eq s⟩, runSteps_eq, fun _ _ => rfl⟩

theorem config_params_wellFormed : Config.params.wellFormed = true := by
  unfold Params.wellFormed
  split
  · rfl
  · next n h => exact decide_eq_true (Config.two_le_of_stackCap h)

/-- Under admissible parameters a full stack is one whose depth is the cap (10_state.md R20). -/
theorem stackFull_iff_of_wellFormed {p : Params} (hp : p.wellFormed = true) (stack : List Word) :
    stackFull p stack = true ↔ p.stackCap = some stack.length :=
  stackFull_eq_true_iff (fun _ => Params.two_le_of_wellFormed hp) stack

/-- Settles O18: a finite cap of this core is 2 more than some number by its construction; the memory size is evaluated. -/
theorem parametersAreInTheirRanges : Obligations.ParametersAreInTheirRanges := by
  unfold Obligations.ParametersAreInTheirRanges
  exact ⟨config_params_wellFormed, by decide, rfl⟩

/-! ### Steps by what they come to -/

/-- Running at the end of the program, the step is the halting move alone (40_decode_dispatch.md R79). -/
theorem stepWith_of_length (p : Params) {s : State} (hr : s.status.state = .running)
    (hip : s.ip = s.program.length) : stepWith p s = .next (halt s) :=
  stepWith_of_action ((nextActionWith_running p hr).trans (if_pos hip))

/-- `step_of_fetch` under any parameters. -/
theorem stepWith_of_fetch (p : Params) {s : State} {w : Word} {i : Instr} (hr : s.status.state = .running)
    (hf : fetch s = some w) (hd : decode w = .ok i) : stepWith p s = settleOutcome (execWith p i s) := by
  have hlt : s.ip < s.program.length := (List.getElem?_eq_some_iff.mp hf).1
  refine stepWith_of_action (a := .execute i) ?_
  rw [nextActionWith_running p hr, if_neg (by omega), hf]
  simp only [hd]

/-- Settles O23: the conditional of the statement is the halting move. -/
theorem stepRunsTheDecodedInstruction : Obligations.StepRunsTheDecodedInstruction := by
  unfold Obligations.StepRunsTheDecodedInstruction
  intro s t w i hr hf hd he
  rw [step_of_fetch hr hf hd, he]
  rfl

/-- Settles O25: the two ways a step comes to no instruction and no fault. -/
theorem noInstructionRunsOutsideRunning : Obligations.NoInstructionRunsOutsideRunning := by
  unfold Obligations.NoInstructionRunsOutsideRunning
  exact fun s => ⟨step_of_not_running, fun hr hip => (step_eq s).trans (stepWith_of_length _ hr hip)⟩

/-! ### READ_MEM -/

theorem readMemWith_of_room (p : Params) {b : Operand} {s : State} (ha : immAddress b < Config.memSize)
    (hroom : ¬ stackFull p s.stack = true) :
    readMemWith p b s = .next { s with stack := memRead (immAddress b) s :: s.stack, ip := s.ip + 1 } :=
  (readMemWith_eq p b s).trans ((if_pos ha).trans (if_neg hroom))

/-- Settles O11: the fault conditions of READ_MEM in their order, and its effect when neither is met. -/
theorem readMemPushesTheAddressedCell : Obligations.ReadMemPushesTheAddressedCell := by
  unfold Obligations.ReadMemPushesTheAddressedCell
  obtain ⟨-, hdecode, -, -, -⟩ := opcodeMapIsComplete
  refine ⟨hdecode, fun b s ha hroom => readMemWith_of_room _ ha (Bool.eq_false_iff.mp hroom), fun p b s ha => ?_,
    fun p b s hp ha hcap => ?_, fun p b s hp ha hroom => ?_, fun _ _ => rfl⟩
  · exact faultsWith_execWith_iff.mpr (.readMem_range b ha)
  · exact faultsWith_execWith_iff.mpr (.readMem_full b ha ((stackFull_iff_of_wellFormed hp _).mpr hcap))
  · exact readMemWith_of_room p ha (mt (stackFull_iff_of_wellFormed hp _).mp hroom)

/-! ### The frame of a completed instruction -/

/-- Settles O16: one case per completed instruction. -/
theorem completedInstructionsKeepEverythingElse : Obligations.CompletedInstructionsKeepEverythingElse := by
  unfold Obligations.CompletedInstructionsKeepEverythingElse
  intro i s t hr he ht
  have h : Completes s i t := completes_of_execWith (exec_eq i s ▸ he) (by simp [ht])
  refine ⟨h.program, h.status, h.ip, ?_⟩
  cases h with
  | loadConst b | readMem b => exact ⟨rfl, List.cons_ne_nil _ _, fun _ => rfl⟩
  | writeMem b a v rest hs ha =>
    refine ⟨by rw [hs]; rfl, fun w hw c hc => ?_⟩
    have hwa : w = a := by simpa [hs] using hw.symm
    exact (Memory.read_write s.memory (stackAddress a) c v).trans (if_neg (hwa ▸ hc))
  | bitreverse b v rest hs => exact ⟨by rw [hs]; rfl, by rw [hs]; rfl, fun _ => rfl⟩

@[simp] theorem memRead_settle (a : Nat) (s : State) : memRead a (settle s) = memRead a s := by
  simp only [memRead, settle_memory]

/-- Settles O21: of the ways a step ends without a fault only a completed WRITE_MEM writes `memory`, and read after
write tells which cell it changed. -/
theorem onlyWriteMemChangesMemory : Obligations.OnlyWriteMemChangesMemory := by
  unfold Obligations.OnlyWriteMemChangesMemory
  intro s t a h ht hne
  rcases step_fault_free_cases h ht with ⟨-, rfl⟩ | ⟨-, -, rfl⟩ | ⟨w, i, u, -, -, -, hact, hu, rfl⟩
  · exact absurd rfl hne
  · exact absurd rfl hne
  · rw [memRead_settle] at hne ⊢
    cases hu with
    | loadConst b | readMem b | bitreverse b v rest hs => exact absurd rfl hne
    | writeMem b addr v rest hs haddr =>
      have hread := Memory.read_write s.memory (stackAddress addr) a v
      by_cases heq : a = stackAddress addr
      · rw [if_pos heq] at hread
        exact ⟨b, addr, v, rest, hact, hs, heq.symm, heq ▸ haddr, hread⟩
      · exact absurd (hread.trans (if_neg heq)) hne

end Sys2Proof.Machine
end

section
/-! SUPPORT. The invariant of the core (10_state.md R15, R18, R24, R27) under any parameters: each part as the shared
updates of the state keep it, then what a step (40_decode_dispatch.md) and a host operation (70_reset_and_hazards.md)
make of it, and the runs it makes straight-line (40_decode_dispatch.md R80). -/

namespace Sys2Proof.Machine

/-! ### The depth bound -/

/-- A stack that is not full has room for one more entry under its cap (10_state.md R20). -/
theorem depthWithin_succ {p : Params} (hp : p.wellFormed = true) {stack : List Word}
    (hroom : ¬ stackFull p stack = true) (h : depthWithin p stack.length) : depthWithin p (stack.length + 1) := by
  rw [stackFull_iff_of_wellFormed hp] at hroom
  intro n hn
  have hle : stack.length ≤ n := h n hn
  have hne : stack.length ≠ n := fun heq => hroom (heq ▸ hn)
  omega

theorem depthWithin_of_le {p : Params} {d d' : Nat} (hle : d' ≤ d) (h : depthWithin p d) : depthWithin p d' :=
  fun n hn => hle.trans (h n hn)

/-- The free stack of a fault is cut to the cap. -/
theorem depthWithin_freeStack (p : Params) (n : Nat) : depthWithin p (freeStack p n).length := by
  intro d hd
  simp only [freeStack, hd]
  exact List.length_take_le d _

/-! ### Completed instructions -/

/-- An instruction that completes has not met the condition of any fault. -/
theorem Completes.not_raises {p : Params} {s t : State} {i : Instr} (h : Completes s i t)
    (he : execWith p i s = .next t) (c : Cause) : ¬ Raises p s i c := by
  rw [← faultsWith_execWith_iff, he]
  exact not_faultsWith_of_ip_ne c (h.ip ▸ Nat.succ_ne_self s.ip)

theorem Completes.depthWithin {p : Params} (hp : p.wellFormed = true) {s t : State} {i : Instr} (h : Completes s i t)
    (he : execWith p i s = .next t) (hs : depthWithin p s.stack.length) : depthWithin p t.stack.length := by
  have hnot := h.not_raises he
  cases h with
  | loadConst b => exact depthWithin_succ hp (fun hfull => hnot _ (.loadConst_full b hfull)) hs
  | readMem b =>
    have ha : immAddress b < Config.memSize := Nat.not_le.mp fun ha => hnot _ (.readMem_range b ha)
    exact depthWithin_succ hp (fun hfull => hnot _ (.readMem_full b ha hfull)) hs
  | writeMem b a v rest hstack | bitreverse b v rest hstack =>
    exact depthWithin_of_le (by simp [hstack, Nat.add_assoc]) hs

theorem Completes.memory_wf {s t : State} {i : Instr} (h : Completes s i t) (hs : Memory.wf s.memory = true) :
    Memory.wf t.memory = true := by
  cases h with
  | writeMem b a v rest _ ha => exact Memory.wf_write v hs ha
  | loadConst b | readMem b | bitreverse b v rest _ => exact hs

/-! ### The invariant under the shared updates -/

theorem CoreInvWith.statusInv {p : Params} {s : State} (h : CoreInvWith p s) : StatusInv s :=
  ⟨h.status_legal, fun hidle => (h.idle_fresh hidle).1⟩

theorem coreInvWith_hostReset (p : Params) (s : State) : CoreInvWith p (hostReset s) where
  memory_wf := Memory.wf_nil
  ip_le := Nat.le_refl 0
  status_legal := (statusInv_hostReset s).legal
  depth_le := fun n _ => Nat.zero_le n
  idle_fresh := fun _ => ⟨rfl, rfl, rfl, rfl⟩

theorem coreInvWith_halt {p : Params} {s : State} (h : CoreInvWith p s) (hip : s.ip = s.program.length) :
    CoreInvWith p (halt s) where
  memory_wf := h.memory_wf
  ip_le := h.ip_le
  status_legal := (statusInv_halt hip).legal
  depth_le := h.depth_le
  idle_fresh := nofun

/-- Entry into an execution fault keeps it, the free stack and memory included. -/
theorem coreInvWith_raise (p : Params) {c : Cause} {s : State} (hc : c.isLoad = false)
    (hlt : s.ip < s.program.length) : CoreInvWith p (raise p c s) where
  memory_wf := Memory.wf_ofCells _
  ip_le := hlt.le
  status_legal := (statusInv_raise p hc hlt).legal
  depth_le := depthWithin_freeStack p s.freeDrawn
  idle_fresh := nofun

theorem coreInvWith_raiseLoad {p : Params} {c : Cause} {s : State} (h : CoreInvWith p s) (hc : c.isLoad = true) :
    CoreInvWith p (raiseLoad c s) where
  memory_wf := h.memory_wf
  ip_le := h.ip_le
  status_legal := (statusInv_raiseLoad s hc).legal
  depth_le := h.depth_le
  idle_fresh := nofun

theorem settle_not_idle {s : State} (h : s.status.state = .running) : (settle s).status.state ≠ .idle := by
  unfold settle
  split <;> simp [h]

/-- A running core with sound data is in an invariant state once the halting move is taken. -/
theorem coreInvWith_settle {p : Params} {s : State} (hm : Memory.wf s.memory = true)
    (hd : depthWithin p s.stack.length) (hs : s.status = { state := .running, cause := none, faultIp := none })
    (hip : s.ip ≤ s.program.length) : CoreInvWith p (settle s) where
  memory_wf := by rwa [settle_memory]
  ip_le := by rwa [settle_ip, settle_program]
  status_legal := (statusInv_settle hs hip).legal
  depth_le := by rwa [settle_stack]
  idle_fresh := fun hidle => absurd hidle (settle_not_idle (congrArg Status.state hs))

/-! ### Steps -/

/-- A step from `ip` at most `N`: the state stays, halts, enters a fault, or an instruction completes. -/
theorem stepWith_cases_of_ip_le (p : Params) {s : State} (hip : s.ip ≤ s.program.length) :
    (s.status.state ≠ .running ∧ stepWith p s = .next s) ∨
    (s.status.state = .running ∧ s.ip = s.program.length ∧ stepWith p s = .next (halt s)) ∨
    (∃ c, s.status.state = .running ∧ s.ip < s.program.length ∧ c.isLoad = false ∧
      stepWith p s = .next (raise p c s)) ∨
    (∃ i u, s.status.state = .running ∧ s.ip < s.program.length ∧ execWith p i s = .next u ∧ Completes s i u ∧
      stepWith p s = .next (settle u)) := by
  rcases stepWith_cases p s with hstay | hhalt | ⟨-, hgt, -⟩ | ⟨_, _, hr, hlt, -, -, hs⟩ |
    ⟨_, i, hr, hlt, -, -, -, hs⟩
  · exact .inl hstay
  · exact .inr (.inl hhalt)
  · omega
  · exact .inr (.inr (.inl ⟨_, hr, hlt, rfl, hs⟩))
  · rcases stepWith_execute_cases hs with ⟨u, hu, hsettle, -, -, hstatus, -⟩ | ⟨c, hc, -, hraise⟩
    · have hfine : u.status.state ≠ .faulted := by simp [hstatus, hr]
      exact .inr (.inr (.inr ⟨i, u, hr, hlt, hu, completes_of_execWith hu hfine, hsettle⟩))
    · exact .inr (.inr (.inl ⟨c, hr, hlt, hc, hraise⟩))

theorem coreInvWith_stepWith {p : Params} (hp : p.wellFormed = true) {s : State} (h : CoreInvWith p s) :
    ∃ t, stepWith p s = .next t ∧ CoreInvWith p t := by
  rcases stepWith_cases_of_ip_le p h.ip_le with ⟨-, hs⟩ | ⟨-, hip, hs⟩ | ⟨c, -, hlt, hc, hs⟩ |
    ⟨i, u, hr, hlt, he, hu, hs⟩
  · exact ⟨s, hs, h⟩
  · exact ⟨_, hs, coreInvWith_halt h hip⟩
  · exact ⟨_, hs, coreInvWith_raise p hc hlt⟩
  · have hstatus := hu.status.trans (statusLegal_running h.status_legal hr).1
    exact ⟨_, hs, coreInvWith_settle (hu.memory_wf h.memory_wf) (hu.depthWithin hp he h.depth_le) hstatus
      (by rw [hu.ip, hu.program]; exact hlt)⟩

/-- Settles O48: each way a step ends keeps each part of the invariant. -/
theorem parametricStepKeepsTheInvariant : Obligations.ParametricStepKeepsTheInvariant := by
  unfold Obligations.ParametricStepKeepsTheInvariant
  exact fun p s hp h => coreInvWith_stepWith hp h

/-- Settles O39: the parametric statement at this core's parameters, which are admissible. -/
theorem stepKeepsTheInvariant : Obligations.StepKeepsTheInvariant := by
  unfold Obligations.StepKeepsTheInvariant
  intro s h
  rw [step_eq]
  exact coreInvWith_stepWith config_params_wellFormed h

/-! ### Reset and host operations -/

/-- Settles O38: the state after reset is one Reset leaves. -/
theorem resetSatisfiesTheInvariant : Obligations.ResetSatisfiesTheInvariant := by
  unfold Obligations.ResetSatisfiesTheInvariant
  rw [← hostReset_reset]
  exact coreInvWith_hostReset _ _

theorem coreInvWith_loadProgram {p : Params} (q : Params) (bytes : List Byte) {s : State} (h : CoreInvWith p s)
    (hidle : s.status.state = .idle) : CoreInvWith p (loadProgram q bytes s) := by
  rcases loadProgram_cases q bytes s with ⟨c, hc, hload⟩ | hload
  · rw [hload]
    exact coreInvWith_raiseLoad h hc
  · rw [hload]
    have hip : s.ip = 0 := h.statusInv.ip_of_idle hidle
    exact coreInvWith_settle h.memory_wf h.depth_le rfl (hip ▸ Nat.zero_le _)

/-- Settles O40: an operation leaves the state as it is, resets it, or loads in Idle, where `ip` is 0. -/
theorem hostOperationsKeepTheInvariant : Obligations.HostOperationsKeepTheInvariant := by
  unfold Obligations.HostOperationsKeepTheInvariant
  intro op s h
  rcases hostOpWith_state_cases Config.params op s with hop | hop | ⟨hidle, bytes, hop⟩
  · rwa [hostOp, hop]
  · rw [hostOp, hop]
    exact coreInvWith_hostReset _ s
  · rw [hostOp, hop]
    exact coreInvWith_loadProgram Config.params bytes h hidle

/-! ### Straight-line runs -/

/-- Where one step leads a running core: one word on, to the end of the program, or into a fault. -/
theorem step_of_coreInv_running {s : State} (h : CoreInv s) (hr : s.status.state = .running) :
    ∃ t, step s = .next t ∧ CoreInv t ∧
      ((t.status.state = .running ∧ t.ip = s.ip + 1) ∨
       (t.status.state = .halted ∧ t.ip = s.program.length ∧ s.ip + 1 = s.program.length) ∨
       (t.status.state = .faulted ∧ t.status.faultIp = some s.ip)) := by
  obtain ⟨t, ht, hinv⟩ := stepKeepsTheInvariant s h
  refine ⟨t, ht, hinv, ?_⟩
  have hlt : s.ip < s.program.length := (statusLegal_running h.status_legal hr).2
  rcases stepWith_next_cases (step_eq s ▸ ht) with ⟨hnr, -⟩ | ⟨-, hip, -⟩ | ⟨-, -, c, -, rfl⟩ |
    ⟨-, -, u, rfl, hprog, hip, hstatus⟩
  · exact absurd hr hnr
  · omega
  · exact .inr (.inr ⟨rfl, rfl⟩)
  · by_cases hend : u.ip = u.program.length
    · have hmove : settle u = halt u := if_pos ⟨by rw [hstatus, hr], hend⟩
      rw [hmove]
      exact .inr (.inl ⟨rfl, by rw [halt_ip, hend, hprog], by rw [← hip, hend, hprog]⟩)
    · rw [settle_of_ip_ne hend]
      exact .inl ⟨by rw [hstatus, hr], hip⟩

/-- Settles O42: an induction on the number of steps, from the first; after a halt none is left to take, and after a
fault the state stays. -/
theorem everyRunIsStraightLineAndEnds : Obligations.EveryRunIsStraightLineAndEnds := by
  unfold Obligations.EveryRunIsStraightLineAndEnds
  intro s k
  induction k generalizing s with
  | zero => exact fun h hr _ => ⟨s, rfl, .inl ⟨hr, rfl, (statusLegal_running h.status_legal hr).2⟩⟩
  | succ k ih =>
    intro h hr hk
    obtain ⟨t, ht, hinv, hgo⟩ := step_of_coreInv_running h hr
    have hprog : t.program = s.program := step_program ht
    simp only [runSteps_succ_of_next k ht]
    rcases hgo with ⟨hrun, hip⟩ | ⟨hhalt, hip, hlast⟩ | ⟨hfault, hindex⟩
    · obtain ⟨u, hu, hcase⟩ := ih t hinv hrun (by rw [hprog]; omega)
      simp only [hprog, hip, Nat.add_assoc, Nat.add_comm 1] at hcase
      refine ⟨u, hu, hcase.imp id (.imp id ?_)⟩
      rintro ⟨hfault, j, v, hj, hv, hfaultStep⟩
      exact ⟨hfault, j + 1, v, Nat.succ_lt_succ hj, (runSteps_succ_of_next j ht).trans hv, hfaultStep⟩
    · have hk0 : k = 0 := by omega
      subst hk0
      exact ⟨t, rfl, .inr (.inl ⟨hhalt, hip, hlast⟩)⟩
    · have hstay : runSteps k t = .next t := runSteps_of_not_running k (by simp [hfault])
      exact ⟨t, hstay, .inr (.inr ⟨hfault, 0, s, by omega, rfl, hr, rfl, hindex, ht⟩)⟩

end Sys2Proof.Machine
end

section
/-! SUPPORT. The cap on the stack (10_state.md R20, 92_eei_decisions.md D4): when a step overflows, and that a finite cap
changes nothing of a run that stays within it. -/

namespace Sys2Proof.Machine

/-! ### When a step overflows -/

/-- An instruction overflows at the cap when it is a push, with a legal address if it is READ_MEM. -/
theorem raises_stackOverflow_iff {p : Params} (hp : p.wellFormed = true) (s : State) (i : Instr) :
    Raises p s i .stackOverflow ↔
      p.stackCap = some s.stack.length ∧
        (i.record.opcode = 42#6 ∨ (i.record.opcode = 23#6 ∧ i.record.operand.toNat < Config.memSize)) := by
  have hcap := stackFull_iff_of_wellFormed hp s.stack
  constructor
  · intro h
    cases h with
    | loadConst_full b hfull => exact ⟨hcap.mp hfull, .inl rfl⟩
    | readMem_full b ha hfull => exact ⟨hcap.mp hfull, .inr ⟨rfl, ha⟩⟩
  · rintro ⟨hfull, hpush⟩
    cases i with
    | loadConst b => exact .loadConst_full b (hcap.mpr hfull)
    | readMem b =>
      have ha : b.toNat < Config.memSize := by simpa [Instr.record] using hpush
      exact .readMem_full b ha (hcap.mpr hfull)
    | writeMem b | bitreverse b => simp [Instr.record] at hpush

/-- Settles O50: a step overflows when its instruction does; a word without one raises UnknownOpcode, and without a word
there is no execution fault. -/
theorem parametricStepOverflowsExactlyAtTheCap : Obligations.ParametricStepOverflowsExactlyAtTheCap := by
  unfold Obligations.ParametricStepOverflowsExactlyAtTheCap
  intro p s hp hr
  rcases stepWith_cases p s with ⟨hnr, -⟩ | ⟨-, hip, hs⟩ | ⟨-, hip, hs⟩ | ⟨w, e, -, -, hf, hd, hs⟩ |
    ⟨w, i, -, -, hf, hd, -, hs⟩
  · exact absurd hr hnr
  · have hnone : fetch s = none := List.getElem?_eq_none_iff.mpr hip.ge
    rw [hs]
    refine iff_of_false ?_ (by simp [hnone])
    rintro ⟨t, ht, hstatus, -⟩
    cases ht
    cases hstatus
  · have hnone : fetch s = none := List.getElem?_eq_none_iff.mpr hip.le
    rw [hs]
    exact iff_of_false (by rintro ⟨t, ht, -⟩; cases ht) (by simp [hnone])
  · obtain ⟨h42, h23, -, -⟩ := dispatch_eq_error hd
    rw [hs]
    exact iff_of_false (not_faultsWith_raise p s (by decide)) (by simp [hf, h42, h23])
  · rw [hs, faultsWith_settleOutcome_iff, faultsWith_execWith_iff, raises_stackOverflow_iff hp, dispatch_eq_ok hd]
    simp [hf]

/-! ### Runs within the cap -/

/-- Only the overflow looks at the parameters. -/
theorem Raises.of_ne_stackOverflow {p : Params} (q : Params) {s : State} {i : Instr} {c : Cause}
    (h : Raises p s i c) (hc : c ≠ .stackOverflow) : Raises q s i c := by
  cases h with
  | loadConst_full b hfull | readMem_full b ha hfull => exact absurd rfl hc
  | readMem_range b ha => exact .readMem_range b ha
  | writeMem_depth b hdepth => exact .writeMem_depth b hdepth
  | writeMem_range b a v rest hs ha => exact .writeMem_range b a v rest hs ha
  | bitreverse_depth b hs => exact .bitreverse_depth b hs

theorem Completes.unique {s t t' : State} {i : Instr} (h : Completes s i t) (h' : Completes s i t') : t = t' := by
  cases h with
  | loadConst b => cases h'; rfl
  | readMem b => cases h'; rfl
  | writeMem b a v rest hs _ =>
    cases h' with
    | writeMem _ a' v' rest' hs' _ => cases hs.symm.trans hs'; rfl
  | bitreverse b v rest hs =>
    cases h' with
    | bitreverse _ v' rest' hs' => cases hs.symm.trans hs'; rfl

/-- An instruction that would overflow under another cap, and completes under this one, leaves one more entry. -/
theorem Completes.length_of_raises_stackOverflow {p : Params} {s t : State} {i : Instr} (h : Completes s i t)
    (hover : Raises p s i .stackOverflow) : t.stack.length = s.stack.length + 1 := by
  cases hover <;> cases h <;> rfl

/-- An instruction that completes within the cap of `p` under other parameters completes under `p` alike. -/
theorem execWith_of_completes_within {p q : Params} (hp : p.wellFormed = true) {s t : State} {i : Instr}
    (he : execWith q i s = .next t) (h : Completes s i t) (hdepth : depthWithin p t.stack.length) :
    execWith p i s = .next t := by
  rcases raises_or_completes p i s with ⟨c, hc⟩ | ⟨t', ht', hcompletes⟩
  · by_cases hover : c = .stackOverflow
    · subst hover
      have hcap := ((raises_stackOverflow_iff hp s i).mp hc).1
      have hle := hdepth _ hcap
      have hlen := h.length_of_raises_stackOverflow hc
      omega
    · exact absurd (hc.of_ne_stackOverflow q hover) (h.not_raises he c)
  · rw [ht', hcompletes.unique h]

/-- So does a step that ends without a fault. -/
theorem stepWith_of_within {p q : Params} (hp : p.wellFormed = true) {s t : State} (h : stepWith q s = .next t)
    (ht : t.status.state ≠ .faulted) (hdepth : depthWithin p t.stack.length) : stepWith p s = .next t := by
  rcases stepWith_cases q s with ⟨hr, hs⟩ | ⟨hr, hip, hs⟩ | ⟨-, -, hs⟩ | ⟨_, _, -, -, -, -, hs⟩ |
    ⟨w, i, hr, -, hf, hd, -, hs⟩
  · cases hs.symm.trans h
    exact stepWith_of_not_running p hr
  · cases hs.symm.trans h
    exact stepWith_of_length p hr hip
  · cases hs.symm.trans h
  · cases hs.symm.trans h
    exact absurd rfl ht
  · rw [hs, settleOutcome_eq_next] at h
    obtain ⟨u, hu, rfl⟩ := h
    have hu_fine : u.status.state ≠ .faulted := mt (settle_faulted_iff u).mpr ht
    rw [settle_stack] at hdepth
    rw [stepWith_of_fetch p hr hf hd,
      execWith_of_completes_within hp hu (completes_of_execWith hu hu_fine) hdepth]
    rfl

theorem runStepsWith_one (p : Params) (s : State) : runStepsWith p 1 s = stepWith p s := by
  rw [runStepsWith_succ]
  cases stepWith p s <;> rfl

/-- Settles O49: the first step within the cap is the same step, and so is the rest of the run from where it leads. -/
theorem runsWithinTheCapAreRunsWithoutACap : Obligations.RunsWithinTheCapAreRunsWithoutACap := by
  unfold Obligations.RunsWithinTheCapAreRunsWithoutACap
  intro p n k s hp hcap
  induction k generalizing s with
  | zero => exact fun _ => rfl
  | succ k ih =>
    intro hwithin
    obtain ⟨t, hstep, hfine, hdepth⟩ := hwithin 1 (by omega)
    rw [runStepsWith_one] at hstep
    have hstep' : stepWith p s = .next t := by
      refine stepWith_of_within hp hstep hfine fun m hm => ?_
      cases hcap.symm.trans hm
      exact hdepth
    rw [runStepsWith_succ_of_next k hstep, runStepsWith_succ_of_next k hstep']
    refine ih t fun j hj => ?_
    rw [← runStepsWith_succ_of_next j hstep]
    exact hwithin (j + 1) (by omega)

end Sys2Proof.Machine
end

section
/-! SUPPORT. The host's operations (70_reset_and_hazards.md R130, R132): where each is accepted, what each leaves, and
the load that starts a program. -/

namespace Sys2Proof.Machine

/-- Settles O34: the two length checks pass, and with a word at `ip` there is no halting move. -/
theorem loadStoresTheProgramAndStartsIt : Obligations.LoadStoresTheProgramAndStartsIt := by
  unfold Obligations.LoadStoresTheProgramAndStartsIt
  intro p bytes s hidle hlen hmax hip
  have hfits : programTooLong p (bytes.length / 4) = false := by
    rw [Bool.eq_false_iff, ne_eq, programTooLong_eq_true_iff]
    exact fun ⟨n, hn, hlt⟩ => (hmax n hn).not_gt hlt
  have hwords : (wordsOfBytes bytes).length = bytes.length / 4 := length_wordsOfBytes bytes
  refine ⟨?_, hwords⟩
  rw [hostOpWith_load_of_idle p bytes hidle, loadProgram_of_fits s hlen hfits, settle_of_ip_ne]
  exact (hip.trans_eq hwords.symm).ne

/-- The table of 70_reset_and_hazards.md R132, one case per operation. -/
theorem hostOp_refused_iff (op : HostOp) (s : State) :
    (hostOp op s).1 = .refused ↔ acceptedIn op s.status.state = false := by
  cases op with
  | reset | readStatus => simp [hostOp, hostOpWith, acceptedIn]
  | load bytes | readStack =>
    simp only [hostOp, hostOpWith, acceptedIn]
    split <;> simp_all
  | dump start stop =>
    by_cases h : s.status.state = .halted
    · rw [hostOp_dump_of_halted start stop h]
      split <;> simp [acceptedIn, h]
    · simp [hostOp_dump_of_not_halted start stop h, acceptedIn, h]

/-- Only Reset, and Load in Idle, write any state. -/
theorem hostOp_state_cases (op : HostOp) (s : State) :
    (hostOp op s).2 = s ∨ op = .reset ∨ (s.status.state = .idle ∧ ∃ bytes, op = .load bytes) := by
  cases op with
  | reset => exact .inr (.inl rfl)
  | load bytes =>
    by_cases hidle : s.status.state = .idle
    · exact .inr (.inr ⟨hidle, bytes, rfl⟩)
    · exact .inl (hostOp_state_of_not_idle nofun hidle)
  | readStatus => exact .inl rfl
  | dump start stop => exact .inl (hostOp_dump_state start stop s)
  | readStack =>
    by_cases hhalted : s.status.state = .halted
    · exact .inl (congrArg Prod.snd (if_pos hhalted))
    · exact .inl (congrArg Prod.snd (if_neg hhalted))

theorem hostOp_state_of_refused {op : HostOp} {s : State} (h : acceptedIn op s.status.state = false) :
    (hostOp op s).2 = s := by
  rcases hostOp_state_cases op s with hkept | rfl | ⟨hidle, bytes, rfl⟩
  · exact hkept
  · cases h
  · rw [hidle] at h
    cases h

theorem loadProgram_keeps_data (p : Params) (bytes : List Byte) (s : State) :
    (loadProgram p bytes s).ip = s.ip ∧ (loadProgram p bytes s).stack = s.stack ∧
      (loadProgram p bytes s).memory = s.memory := by
  rcases loadProgram_cases p bytes s with ⟨c, -, h⟩ | h
  · rw [h]
    exact ⟨rfl, rfl, rfl⟩
  · rw [h]
    exact ⟨settle_ip _, settle_stack _, settle_memory _⟩

/-- The host moves `ip`, the stack and memory by Reset alone. -/
theorem hostOp_keeps_data {op : HostOp} (hop : op ≠ .reset) (s : State) :
    (hostOp op s).2.ip = s.ip ∧ (hostOp op s).2.stack = s.stack ∧ (hostOp op s).2.memory = s.memory := by
  rcases hostOp_state_cases op s with hkept | hreset | ⟨hidle, bytes, rfl⟩
  · rw [hkept]
    exact ⟨rfl, rfl, rfl⟩
  · exact absurd hreset hop
  · rw [hostOp, hostOpWith_load_of_idle _ bytes hidle]
    exact loadProgram_keeps_data Config.params bytes s

/-- Settles O37: the table of acceptance, and each operation's effect and answer where it is accepted. -/
theorem hostOperationsAreAnsweredOnlyWhereListed : Obligations.HostOperationsAreAnsweredOnlyWhereListed := by
  unfold Obligations.HostOperationsAreAnsweredOnlyWhereListed
  intro op s
  refine ⟨hostOp_refused_iff op s, hostOp_state_of_refused, ?readStatus, ?readStack, ?reset, ?dump,
    fun hop => hostOp_keeps_data hop s, ?load⟩
  case readStatus => rintro rfl; rfl
  case readStack => rintro rfl hhalted; exact if_pos hhalted
  case reset => rintro rfl; exact hostOp_reset s
  case dump =>
    rintro start stop rfl
    refine ⟨hostOp_dump_state start stop s, fun hhalted => ?_⟩
    rw [hostOp_dump_of_halted start stop hhalted]
    split <;> rfl
  case load => rintro bytes rfl hidle; exact hostOpWith_load_of_idle _ bytes hidle

end Sys2Proof.Machine
end

section
/-! SUPPORT. The assembler (30_encoding.md R63 to R68), outside the hardware: the words it emits and the lines it
skips. -/

namespace Sys2Proof.Machine

/-! ### The words it emits -/

/-- Every mnemonic names an opcode of the map (30_encoding.md R55). -/
theorem assigned_of_lookupMnemonic {name : List Char} {a : Opcode} {takesOperand : Bool}
    (h : lookupMnemonic name = some (a, takesOperand)) (b : Operand) :
    Record.assigned { opcode := a, operand := b } = true := by
  simp only [lookupMnemonic] at h
  split_ifs at h <;> cases h <;> rfl

theorem decodeRecord_encodeOperand (a : Opcode) (b : Option Int) :
    decodeRecord (encodeOperand a b) = { opcode := a, operand := BitVec.ofInt 26 (b.getD 0) } :=
  decodeRecord_encodeRecord _

theorem assigned_of_assembleTokens {name : List Char} {operands : List (List Char)} {w : Word}
    (h : assembleTokens name operands = .ok w) : (decodeRecord w).assigned = true := by
  rcases assembleTokens_ok h with ⟨a, hlookup, rfl⟩ | ⟨a, n, hlookup, rfl⟩
  · rw [decodeRecord_encodeOperand]
    exact assigned_of_lookupMnemonic hlookup _
  · rw [decodeRecord_encodeOperand]
    exact assigned_of_lookupMnemonic hlookup _

/-- A line that contributes a word contributes that of its tokens. -/
theorem assigned_of_assembleLine {marker : Char} {line : List Char} {w : Word}
    (h : assembleLine marker line = .ok (some w)) : (decodeRecord w).assigned = true := by
  unfold assembleLine at h
  split at h
  · cases h
  · split at h
    · cases h
    · split at h
      · next hw => cases h; exact assigned_of_assembleTokens hw
      · cases h

/-- A text assembles line by line: the word of its first line, if that has one, before those of the rest. -/
theorem assemble_cons_ok {marker : Char} {line : List Char} {rest : List (List Char)} {words : List Word}
    (h : assemble marker (line :: rest) = .ok words) :
    ∃ word ws, assembleLine marker line = .ok word ∧ assemble marker rest = .ok ws ∧ words = word.toList ++ ws := by
  rw [assemble] at h
  split at h
  · cases h
  · cases h
  · next ws hline hrest => cases h; exact ⟨none, _, hline, hrest, rfl⟩
  · next w ws hline hrest => cases h; exact ⟨some w, _, hline, hrest, rfl⟩

/-- Settles O45: an induction on the lines, each of which adds at most one word, that of a mnemonic. -/
theorem assemblerEmitsOnlyAssignedOpcodes : Obligations.AssemblerEmitsOnlyAssignedOpcodes := by
  unfold Obligations.AssemblerEmitsOnlyAssignedOpcodes
  intro marker lines
  induction lines with
  | nil =>
    intro words h
    cases h
    exact ⟨le_rfl, nofun⟩
  | cons line rest ih =>
    intro words h
    obtain ⟨word, ws, hline, hrest, rfl⟩ := assemble_cons_ok h
    obtain ⟨hlen, hassigned⟩ := ih ws hrest
    cases word with
    | none => exact ⟨Nat.le_succ_of_le hlen, hassigned⟩
    | some w =>
      exact ⟨Nat.succ_le_succ hlen, List.forall_mem_cons.mpr ⟨assigned_of_assembleLine hline, hassigned⟩⟩

/-! ### The lines it skips -/

theorem tokens_of_blank {line : List Char} (h : ∀ c ∈ line, c.isWhitespace = true) : tokens line = [] := by
  unfold tokens
  induction line with
  | nil => rfl
  | cons c rest ih =>
    obtain ⟨hc, hrest⟩ := List.forall_mem_cons.mp h
    simp only [tokensFrom, hc, ↓reduceIte, ih hrest]

/-- A line that contributes no word leaves the result of the rest, an error included (30_encoding.md R65). -/
theorem assemble_of_skipped {marker : Char} {line : List Char} (h : assembleLine marker line = .ok none)
    (rest : List (List Char)) : assemble marker (line :: rest) = assemble marker rest := by
  rw [assemble, h]
  cases assemble marker rest <;> rfl

/-- Settles O46: a blank line has no tokens, and a comment line starts with the marker; neither contributes a word. -/
theorem skippedLinesContributeNothing : Obligations.SkippedLinesContributeNothing := by
  unfold Obligations.SkippedLinesContributeNothing
  refine ⟨fun marker line rest hblank => assemble_of_skipped ?_ rest,
    fun marker line name operands rest htokens hmarker => assemble_of_skipped ?_ rest⟩
  · rw [assembleLine, tokens_of_blank hblank]
  · simp only [assembleLine, htokens, if_pos hmarker]

end Sys2Proof.Machine
end
